-- ==== Sys2Proof/Word.lean ====
section
/-! DEFINITION. The words the engine's registers, streams and delay line hold, and the constants the source fixes
(00_scope.md R8, R10). -/

namespace Sys2Proof

/-- One byte of IN or OUT (00_scope.md R10). -/
abbrev Byte := BitVec 8

/-- An Audio Sample as the 16 bits that are stored and streamed; its value is `toInt`, the two's-complement
reading `sext_16` (00_scope.md R11, 30_encoding.md R76). -/
abbrev Sample := BitVec 16

/-- A 32-bit word: the DELAY register and the two size fields (10_state.md R25, 30_encoding.md R79). -/
abbrev Word32 := BitVec 32

/-- A 64-bit word: VSCALE's binary64 pattern and the value a register read returns (10_state.md R26, R35). -/
abbrev Word64 := BitVec 64

/-- A host transaction word, `HT = W : RN : DATA` (30_encoding.md R85). -/
abbrev HostWord := BitVec 68

/-- A selector: `HS` of a host transaction or `SS` of the sequencer (30_encoding.md R88, R90). -/
abbrev Selector := BitVec 6

/-- HDR_SIZE (00_scope.md R8). -/
abbrev hdrSize : Nat := 44

/-- RIFF_OFF, the offset of the chunk-size field (00_scope.md R8). -/
abbrev riffOff : Nat := 4

/-- DATA_OFF, the offset of the data-subchunk-size field (00_scope.md R8). -/
abbrev dataOff : Nat := 40

end Sys2Proof
end

