-- ==== Sys2Proof/Syntax.lean ====
section
/-! DEFINITION. The operations of the engine: one constructor per row of spec/opcode_table.json, eleven host rows and
eleven sequencer rows (30_encoding.md R88, R91). -/

namespace Sys2Proof

/-- MODE, a 1-bit register: which pipeline a run executes (10_state.md R24). -/
inductive Mode where
  | echo      -- 0
  | downmix   -- 1
deriving DecidableEq, Repr, Inhabited

/-- The host's eight register numbers RN (10_state.md R35). -/
inductive HostReg where
  | ctrl | status | mode | delay | vscale | inPos | outLen | reserved
deriving DecidableEq, Repr, Inhabited

/-- The two operation formats (30_encoding.md R84). -/
inductive Format where
  | host | seq
deriving DecidableEq, Repr

/-- The operations. An operand is what the operation's rule reads from its transaction word; bits the rule ignores
are no operand (30_encoding.md R86, R93). Sequencer operations have no operand fields (R84). -/
inductive Instr where
  /-- RDREG r (40_host_ops.md R114). -/
  | rdreg (r : HostReg)
  /-- NOPW, a write of CTRL with both bits clear (R112). -/
  | nopwCtrl
  /-- START (R108). -/
  | start
  /-- ABORT (R110). -/
  | abort
  /-- NOPW, a write of the read-only STATUS (R112). -/
  | nopwStatus
  /-- SETMODE m, `m` = DATA[0] (R102). -/
  | setmode (m : Mode)
  /-- SETDELAY n, `n` = sext_32(DATA[31:0]) (R104). -/
  | setdelay (n : Int)
  /-- SETVSCALE v, `v` = DATA[63:0] as a binary64 pattern (R106). -/
  | setvscale (v : Word64)
  /-- NOPW, a write of the read-only IN_POS (R112). -/
  | nopwInPos
  /-- NOPW, a write of the read-only OUT_LEN (R112). -/
  | nopwOutLen
  /-- NOPW, a write of the reserved register 7 (R112). -/
  | nopwReserved
  /-- CHECK.ECHO (41_sequencer_header.md R121). -/
  | checkEcho
  /-- CHECK.DMX (R123). -/
  | checkDmx
  /-- HDR.COPY (R125). -/
  | hdrCopy
  /-- ECHO.INIT (42_echo.md R145). -/
  | echoInit
  /-- ECHO.MIX (R153). -/
  | echoMix
  /-- ECHO.EOS (R157). -/
  | echoEos
  /-- ECHO.FLUSH (R160). -/
  | echoFlush
  /-- ECHO.FLUSHEND (R165). -/
  | echoFlushend
  /-- HDR.PATCH (41_sequencer_header.md R130). -/
  | hdrPatch
  /-- DMX.PAIR (43_downmix.md R182). -/
  | dmxPair
  /-- DMX.EOS (R186). -/
  | dmxEos
deriving DecidableEq, Repr

/-- Which of the two formats an operation has: who may execute it (30_encoding.md R84, 60_exceptions.md R220). -/
def Instr.format : Instr → Format
  | .rdreg _ | .nopwCtrl | .start | .abort | .nopwStatus | .setmode _ | .setdelay _ | .setvscale _
  | .nopwInPos | .nopwOutLen | .nopwReserved => .host
  | .checkEcho | .checkDmx | .hdrCopy | .echoInit | .echoMix | .echoEos | .echoFlush | .echoFlushend
  | .hdrPatch | .dmxPair | .dmxEos => .seq

end Sys2Proof
end

