-- ==== Sys2Proof/WellFormed.lean ====
section
/-! DEFINITION. When an operation as written has an encoding. The only operand whose type is wider than its field is
SETDELAY's integer (30_encoding.md R80); every other operand's type holds exactly what its field holds. -/

namespace Sys2Proof

/-- `n` is a value of a 32-bit two's-complement register: −2^31 … 2^31 − 1 (10_state.md R25). -/
def fitsInt32 (n : Int) : Bool := decide (-2147483648 ≤ n) && decide (n ≤ 2147483647)

/-- The operand fits its field (30_encoding.md R86). -/
def Instr.wellFormed : Instr → Bool
  | .setdelay n => fitsInt32 n
  | .rdreg _ | .nopwCtrl | .start | .abort | .nopwStatus | .setmode _ | .setvscale _
  | .nopwInPos | .nopwOutLen | .nopwReserved
  | .checkEcho | .checkDmx | .hdrCopy | .echoInit | .echoMix | .echoEos | .echoFlush | .echoFlushend
  | .hdrPatch | .dmxPair | .dmxEos => true

end Sys2Proof
end

