-- ==== Sys2Proof/Decode.lean ====
section
/-! DEFINITION. Decoding a transaction word or a sequencer selector, total, refusing by name; the encoder; and the
opcode table as rows of match and mask (30_encoding.md R85 to R92). -/

namespace Sys2Proof

/-- The operation word in its format: a host transaction word, or the selector the sequencer computes from its state.
The two formats share no bit that tells them apart; the agent does (30_encoding.md R84; log 13). -/
inductive Code where
  | host (ht : HostWord)
  | seq (ss : Selector)
deriving DecidableEq, Repr

/-- Why a selector has no operation (30_encoding.md R92). -/
inductive DecodeError where
  /-- PHASE is IDLE, DONE or FAULT: the sequencer is quiescent, which is no error of the machine. -/
  | quiescent
  /-- PHASE is 10 … 15, which no rule produces. -/
  | noPhase
deriving DecidableEq, Repr

/-! ## The fields of a transaction word (30_encoding.md R85) -/

/-- W, bit 67: 1 write, 0 read. -/
def fieldW (ht : HostWord) : Bool := ht.getLsbD 67

/-- RN, bits 66:64. -/
def fieldRN (ht : HostWord) : BitVec 3 := ht.extractLsb' 64 3

/-- DATA, bits 63:0. -/
def fieldData (ht : HostWord) : Word64 := ht.extractLsb' 0 64

/-- `HS = W : RN : DATA[1:0]` (R88). -/
def hostSelector (ht : HostWord) : Selector :=
  BitVec.ofBool (fieldW ht) ++ fieldRN ht ++ (fieldData ht).extractLsb' 0 2

/-- The register a number names (10_state.md R35). -/
def hostRegOf (rn : BitVec 3) : HostReg :=
  match rn.toNat with
  | 0 => .ctrl
  | 1 => .status
  | 2 => .mode
  | 3 => .delay
  | 4 => .vscale
  | 5 => .inPos
  | 6 => .outLen
  | _ => .reserved

/-- A register's number (10_state.md R35). -/
def hostRegNumber : HostReg → BitVec 3
  | .ctrl => 0#3
  | .status => 1#3
  | .mode => 2#3
  | .delay => 3#3
  | .vscale => 4#3
  | .inPos => 5#3
  | .outLen => 6#3
  | .reserved => 7#3

/-- MODE of its bit (10_state.md R24). -/
def modeOfBit (b : Bool) : Mode := if b then .downmix else .echo

/-- MODE as its bit (10_state.md R24). -/
def modeBit : Mode → Bool
  | .echo => false
  | .downmix => true

/-! ## Decoding -/

/-- The operation a write of register `r` with `data` is (30_encoding.md R86, R88). -/
def decodeWrite (r : HostReg) (data : Word64) : Instr :=
  match r with
  | .ctrl => if data.getLsbD 1 then .abort else if data.getLsbD 0 then .start else .nopwCtrl
  | .status => .nopwStatus
  | .mode => .setmode (modeOfBit (data.getLsbD 0))
  | .delay => .setdelay (data.extractLsb' 0 32).toInt
  | .vscale => .setvscale data
  | .inPos => .nopwInPos
  | .outLen => .nopwOutLen
  | .reserved => .nopwReserved

/-- A transaction word always selects an operation: "there is no illegal-operation exception: no encoding traps"
(30_encoding.md R88, R92). -/
def decodeHost (ht : HostWord) : Instr :=
  if fieldW ht then decodeWrite (hostRegOf (fieldRN ht)) (fieldData ht) else .rdreg (hostRegOf (fieldRN ht))

/-- The sequencer's operation for a selector `SS = PHASE : MODE : EXH` (30_encoding.md R90, R91, R92). -/
def decodeSeq (ss : Selector) : Except DecodeError Instr :=
  match (ss.extractLsb' 2 4).toNat with
  | 0 | 8 | 9 => .error .quiescent
  | 1 => .ok (if ss.getLsbD 1 then .checkDmx else .checkEcho)
  | 2 => .ok .hdrCopy
  | 3 => .ok .echoInit
  | 4 => .ok (if ss.getLsbD 0 then .echoEos else .echoMix)
  | 5 => .ok (if ss.getLsbD 0 then .echoFlushend else .echoFlush)
  | 6 => .ok .hdrPatch
  | 7 => .ok (if ss.getLsbD 0 then .dmxEos else .dmxPair)
  | _ => .error .noPhase

/-- Decoding of a word in either format. -/
def decode : Code → Except DecodeError Instr
  | .host ht => .ok (decodeHost ht)
  | .seq ss => decodeSeq ss

/-! ## Encoding -/

/-- A transaction word of its three fields (30_encoding.md R85). -/
def hostWord (w : Bool) (r : HostReg) (data : Word64) : HostWord :=
  BitVec.ofBool w ++ hostRegNumber r ++ data

/-- A selector of its three fields (30_encoding.md R90). -/
def seqSelector (phase : BitVec 4) (mode exh : Bool) : Selector :=
  phase ++ BitVec.ofBool mode ++ BitVec.ofBool exh

/-- The word of an operation; bits its rule ignores are 0 (30_encoding.md R86, R88, R91; log 19). -/
def encode : Instr → Code
  | .rdreg r => .host (hostWord false r 0)
  | .nopwCtrl => .host (hostWord true .ctrl 0)
  | .start => .host (hostWord true .ctrl 1)
  | .abort => .host (hostWord true .ctrl 2)
  | .nopwStatus => .host (hostWord true .status 0)
  | .setmode m => .host (hostWord true .mode ((BitVec.ofBool (modeBit m)).setWidth 64))
  | .setdelay n => .host (hostWord true .delay ((BitVec.ofInt 32 n).setWidth 64))
  | .setvscale v => .host (hostWord true .vscale v)
  | .nopwInPos => .host (hostWord true .inPos 0)
  | .nopwOutLen => .host (hostWord true .outLen 0)
  | .nopwReserved => .host (hostWord true .reserved 0)
  | .checkEcho => .seq (seqSelector 1 false false)
  | .checkDmx => .seq (seqSelector 1 true false)
  | .hdrCopy => .seq (seqSelector 2 false false)
  | .echoInit => .seq (seqSelector 3 false false)
  | .echoMix => .seq (seqSelector 4 false false)
  | .echoEos => .seq (seqSelector 4 false true)
  | .echoFlush => .seq (seqSelector 5 false false)
  | .echoFlushend => .seq (seqSelector 5 false true)
  | .hdrPatch => .seq (seqSelector 6 false false)
  | .dmxPair => .seq (seqSelector 7 false false)
  | .dmxEos => .seq (seqSelector 7 false true)

/-- The 6-bit selector of a word: HS of a transaction word, SS itself (30_encoding.md R88, R90). -/
def Code.selector : Code → Selector
  | .host ht => hostSelector ht
  | .seq ss => ss

/-- The format a word stands in. -/
def Code.format : Code → Format
  | .host _ => .host
  | .seq _ => .seq

/-! ## The opcode table -/

/-- A row of the opcode table: an operation is selected when `(selector AND mask) = match` (30_encoding.md R88). -/
structure OpcodeRow where
  format : Format
  matchBits : Selector
  maskBits : Selector
deriving DecidableEq, Repr

/-- The row of each operation, with the match and mask of R88 and R91. -/
def Instr.row : Instr → OpcodeRow
  | .rdreg _ => ⟨.host, 0x00#6, 0x20#6⟩
  | .nopwCtrl => ⟨.host, 0x20#6, 0x3F#6⟩
  | .start => ⟨.host, 0x21#6, 0x3F#6⟩
  | .abort => ⟨.host, 0x22#6, 0x3E#6⟩
  | .nopwStatus => ⟨.host, 0x24#6, 0x3C#6⟩
  | .setmode _ => ⟨.host, 0x28#6, 0x3C#6⟩
  | .setdelay _ => ⟨.host, 0x2C#6, 0x3C#6⟩
  | .setvscale _ => ⟨.host, 0x30#6, 0x3C#6⟩
  | .nopwInPos => ⟨.host, 0x34#6, 0x3C#6⟩
  | .nopwOutLen => ⟨.host, 0x38#6, 0x3C#6⟩
  | .nopwReserved => ⟨.host, 0x3C#6, 0x3C#6⟩
  | .checkEcho => ⟨.seq, 0x04#6, 0x3E#6⟩
  | .checkDmx => ⟨.seq, 0x06#6, 0x3E#6⟩
  | .hdrCopy => ⟨.seq, 0x08#6, 0x3C#6⟩
  | .echoInit => ⟨.seq, 0x0C#6, 0x3C#6⟩
  | .echoMix => ⟨.seq, 0x10#6, 0x3D#6⟩
  | .echoEos => ⟨.seq, 0x11#6, 0x3D#6⟩
  | .echoFlush => ⟨.seq, 0x14#6, 0x3D#6⟩
  | .echoFlushend => ⟨.seq, 0x15#6, 0x3D#6⟩
  | .hdrPatch => ⟨.seq, 0x18#6, 0x3C#6⟩
  | .dmxPair => ⟨.seq, 0x1C#6, 0x3D#6⟩
  | .dmxEos => ⟨.seq, 0x1D#6, 0x3D#6⟩

/-- The row selects the word: its format, and `(selector AND mask) = match` (30_encoding.md R88). -/
def OpcodeRow.selects (r : OpcodeRow) (c : Code) : Bool :=
  decide (c.format = r.format) && decide (c.selector &&& r.maskBits = r.matchBits)

/-! ## The table's words (the host's numbering) -/

/-- The transaction word whose selector is `hs` and whose DATA[63:2] is 0. -/
def hostWordOfSelector (hs : Selector) : HostWord :=
  hs.extractLsb' 2 4 ++ (0#62 ++ hs.extractLsb' 0 2)

/-- The word that `nbits` bits of the opcode table stand for. The table numbers the 6-bit selector. A number too long
for a selector is read as the transaction word of 30_encoding.md R85, whole. The selectors of the two formats overlap:
a selector that a sequencer row matches is read as that row, every other one as a host selector (log 13). -/
def codeOfTableWord (nbits w : Nat) : Option Code :=
  if 64 < nbits then
    if w < 2 ^ 68 then some (.host (BitVec.ofNat 68 w)) else none
  else if 64 ≤ w then none
  else if 4 ≤ w ∧ w < 32 then some (.seq (BitVec.ofNat 6 w))
  else some (.host (hostWordOfSelector (BitVec.ofNat 6 w)))

/-- The instruction the decoder reads from a word numbered as spec/opcode_table.json numbers it; none where it
refuses. -/
def decodeTableWord (nbits w : Nat) : Option Instr :=
  match codeOfTableWord nbits w with
  | none => none
  | some c =>
    match decode c with
    | .ok i => some i
    | .error _ => none

end Sys2Proof
end

