-- ==== Sys2Proof/Machine/Binary64.lean ====
section
/-! DEFINITION. IEEE 754 binary64 as far as the gain division needs it (00_scope.md R13, 10_state.md R26,
30_encoding.md R81, 42_echo.md R150). A finite value is a sign and a magnitude counted in units of 2^−1074, the
smallest positive subnormal, so every magnitude is a natural number. -/

namespace Sys2Proof.Machine

/-- Bit 63 (30_encoding.md R81). -/
def f64Sign (v : Word64) : Bool := v.getLsbD 63

/-- Bits 62:52, the biased exponent (R81). -/
def f64Exp (v : Word64) : Nat := (v.extractLsb' 52 11).toNat

/-- Bits 51:0, the fraction (R81). -/
def f64Frac (v : Word64) : Nat := (v.extractLsb' 0 52).toNat

/-- Neither an infinity nor a NaN (00_scope.md R13). -/
def f64Finite (v : Word64) : Bool := f64Exp v != 2047

/-- +0 or −0 (00_scope.md R13). -/
def f64IsZero (v : Word64) : Bool := f64Exp v == 0 && f64Frac v == 0

/-- An infinity: exponent 2047, fraction 0 (30_encoding.md R81). -/
def f64IsInf (v : Word64) : Bool := f64Exp v == 2047 && f64Frac v == 0

/-- A NaN: exponent 2047, fraction not 0 (30_encoding.md R81). -/
def f64IsNaN (v : Word64) : Bool := f64Exp v == 2047 && f64Frac v != 0

/-- How many units of 2^−1074 make 1. -/
def f64One : Nat := 2 ^ 1074

/-- The magnitude, in units of 2^−1074, of a finite pattern with this exponent and fraction: subnormal when the
exponent is 0, with the leading 1 otherwise (R81). -/
def f64Magnitude (e f : Nat) : Nat := if e = 0 then f else (2 ^ 52 + f) * 2 ^ (e - 1)

/-- The magnitude of a finite value, in units of 2^−1074. -/
def f64Mag (v : Word64) : Nat := f64Magnitude (f64Exp v) (f64Frac v)

/-- Bits 62:0 of an infinity (R81). -/
def f64InfBits : Nat := 2047 * 2 ^ 52

/-- `n / d` rounded to the nearest integer, ties to the even one. -/
def divNearestEven (n d : Nat) : Nat :=
  let q := n / d
  let r := n % d
  if 2 * r > d ∨ (2 * r = d ∧ q % 2 = 1) then q + 1 else q

/-- Bits 62:0 of the binary64 value nearest to `num / den`, ties to an even last significand bit, an infinity on
overflow (42_echo.md R150). The significand has 53 bits, so the last bit of a quotient of `q` units weighs
2^(log2 q − 52) units, and at least one unit. -/
def f64NearestBits (num den : Nat) : Nat :=
  let shift := Nat.log2 (num * f64One / den) - 52
  min (shift * 2 ^ 52 + divNearestEven (num * f64One) (den * 2 ^ shift)) f64InfBits

/-- A pattern of its sign and its bits 62:0. -/
def f64OfBits (neg : Bool) (bits : Nat) : Word64 := BitVec.ofBool neg ++ BitVec.ofNat 63 bits

/-- A quiet NaN (30_encoding.md R81). -/
def f64QuietNaN : Word64 := 0x7FF8000000000000#64

/-- `real(n)`: the value equal to the integer `n` (00_scope.md R13), exact for every `int16`. -/
def f64OfInt (n : Int) : Word64 := f64OfBits (decide (n < 0)) (f64NearestBits n.natAbs 1)

/-- The binary64 quotient under roundTiesToEven (42_echo.md R150). R150 calls it only with a finite dividend and a
finite nonzero divisor; the other cases, which no reachable state meets, are IEEE 754's own (log 11). -/
def f64Div (a b : Word64) : Word64 :=
  let neg := f64Sign a != f64Sign b
  if f64IsNaN a || f64IsNaN b then f64QuietNaN
  else if f64IsInf a then (if f64IsInf b then f64QuietNaN else f64OfBits neg f64InfBits)
  else if f64IsInf b then f64OfBits neg 0
  else if f64IsZero b then (if f64IsZero a then f64QuietNaN else f64OfBits neg f64InfBits)
  else f64OfBits neg (f64NearestBits (f64Mag a) (f64Mag b))

/-- `trunc0` of a finite value: round toward zero (00_scope.md R11). -/
def f64Trunc0 (v : Word64) : Int :=
  let m : Int := ((f64Mag v / f64One : Nat) : Int)
  if f64Sign v then -m else m

end Sys2Proof.Machine
end

