-- ==== Sys2Proof/Machine/Gain.lean ====
section
/-! DEFINITION. The gain unit: the parameter `fdiv` and, with it, the legality of a divisor, as plain data
(00_scope.md R9 rows FPFMT and fdiv, 10_state.md R38, 92_eei_decisions.md D5, D6). The operands are finitely many, so
every total function of them is the default with a list of the operands at which it differs; Laws/Gain.lean says so. -/

namespace Sys2Proof.Machine

open Sys2Proof

/-- One pair of operands at which a platform's division differs from the default. -/
structure GainQuotient where
  dividend : Word64
  divisor : Word64
  quotient : Word64
deriving DecidableEq, Repr

/-- One divisor whose legality in a platform's format differs from the default (92_eei_decisions.md D5: another format
"changes `fdiv` and the legality predicate only"). -/
structure GainVerdict where
  divisor : Word64
  legal : Bool
deriving DecidableEq, Repr

/-- A platform's gain unit: where its division and its legality predicate differ from binary64's. The first entry for
an operand counts. -/
structure GainUnit where
  quotients : List GainQuotient
  verdicts : List GainVerdict
deriving DecidableEq, Repr

/-- The default: binary64 division under roundTiesToEven, and its legality predicate (00_scope.md R9). -/
def GainUnit.binary64 : GainUnit := ⟨[], []⟩

/-- Finite and nonzero: a VSCALE that is legal in binary64 (10_state.md R26, 41_sequencer_header.md R121). -/
def vscaleLegal (v : Word64) : Bool := f64Finite v && !f64IsZero v

/-- `fdiv(a, b)`, the configured gain division (00_scope.md R9, R13; 42_echo.md R150). -/
def GainUnit.fdiv (g : GainUnit) (a b : Word64) : Word64 :=
  match g.quotients.find? (fun q => decide (q.dividend = a) && decide (q.divisor = b)) with
  | some q => q.quotient
  | none => f64Div a b

/-- The divisor is one CHECK.ECHO accepts (41_sequencer_header.md R121, 92_eei_decisions.md D5, D8). -/
def GainUnit.accepts (g : GainUnit) (v : Word64) : Bool :=
  match g.verdicts.find? (fun d => decide (d.divisor = v)) with
  | some d => d.legal
  | none => vscaleLegal v

end Sys2Proof.Machine
end

