-- ==== Sys2Proof/Config.lean ====
section
/-! DEFINITION. What the spec leaves to a platform or to the environment (00_scope.md R9, 10_state.md R38,
92_eei_decisions.md "Open parameters, collected"): the opaque constants have no body, so no proof can see a value of
theirs. -/

namespace Sys2Proof

/-- The environment's answer to one write: it succeeds, or only its first `k` bytes are written
(20_memory.md R57, R59). -/
inductive SinkAnswer where
  | ok
  | fail (k : Nat)
deriving DecidableEq, Repr, Inhabited

/-- DELAY_MAX less one: any value of its range (00_scope.md R9; log 7). -/
opaque Config.delayMaxPred : Fin 2147483647

/-- DELAY_MAX, 1 ≤ DELAY_MAX ≤ 2^31 − 1, open (00_scope.md R9, 92_eei_decisions.md D9; log 7). -/
def Config.delayMax : Nat := Config.delayMaxPred.val + 1

/-- The sink oracle's draw for the `n`-th write after the answers State lists are used up (20_memory.md R59,
93_implementation_defined.md U7; log 5). -/
opaque Config.sinkDraw : Nat → SinkAnswer

/-- The narrowing of a NaN quotient, which "has no defined value" (41_sequencer_header.md R121) and never arises under
the default division (42_echo.md R150; log 12). -/
opaque Config.narrowNaN : Word64 → Sample

/-- The default of the parameter `fdiv`, "binary64 division, round to nearest, ties to even" (00_scope.md R9): what
State.reset carries. A platform's own stands in State.gain (log 11). -/
def Config.gainDefault : Machine.GainUnit := .binary64

/-- DELAY_DEFAULT (00_scope.md R8). -/
def Config.delayDefault : Word32 := 8000#32

/-- VSCALE_DEFAULT, 4.0 (00_scope.md R8, 10_state.md R39). -/
def Config.vscaleDefault : Word64 := 0x4010000000000000#64

end Sys2Proof
end

