-- ==== Sys2Proof/Machine/State.lean ====
section
/-! DEFINITION. The machine's state as plain data (10_state.md R20), the parameters of a run it carries (R38), the
model's own fields, the ways a step can stop, and the state after reset (R39). -/

namespace Sys2Proof.Machine

open Sys2Proof

/-- PHASE, where the run is (10_state.md R22). Values 10 … 15 are never taken and are absent (log 16). -/
inductive Phase where
  | idle | check | hdr | echoInit | echoRun | echoFlush | patch | dmxRun | done | fault
deriving DecidableEq, Repr, Inhabited

/-- ERR, why the run failed (10_state.md R23, 60_exceptions.md R201). Values 8 … 15 are never taken and are absent
(log 16). -/
inductive Err where
  | none | errDelay | errVscale | errAlloc | errHdrRead | errHdrWrite | errWrite | errPatch
deriving DecidableEq, Repr, Inhabited

/-- The delay-line memory DL: (index, sample) pairs, indexes strictly rising, no sample equal to what an unlisted
index reads as (10_state.md R30; log 18). -/
abbrev Memory := List (Nat × Sample)

/-- What the host attaches before START: the bytes of IN, and the answers its sink will give, oldest first
(40_host_ops.md R108, R116; log 5). -/
structure Attachment where
  input : List Byte
  sink : List SinkAnswer
deriving DecidableEq, Repr, Inhabited

/-- Whose turn it is, and what the host or the environment does in it (40_host_ops.md R118; log 1). -/
inductive Turn where
  /-- The sequencer takes its next step. -/
  | sequencer
  /-- The host issues a transaction word (30_encoding.md R85). -/
  | transaction (ht : HostWord)
  /-- The host attaches an input and a sink (40_host_ops.md R116). -/
  | attach (a : Attachment)
  /-- Hardware reset is applied (70_reset_and_hazards.md R230). -/
  | reset
deriving DecidableEq, Repr

/-- Everything the machine holds. -/
structure State where
  /-- PHASE (10_state.md R22). -/
  phase : Phase
  /-- ERR (R23). -/
  err : Err
  /-- MODE (R24). -/
  mode : Mode
  /-- DELAY, read as two's complement (R25). -/
  delay : Word32
  /-- VSCALE, a binary64 pattern (R26). -/
  vscale : Word64
  /-- IN_POS, bytes of IN consumed (R29). -/
  inPos : Nat
  /-- DL, the delay line (R30). -/
  dl : Memory
  /-- IDX, the delay line's one cursor (R31). -/
  idx : Nat
  /-- FLUSH_CNT, tail samples emitted (R32). -/
  flushCnt : Nat
  /-- OUT, the bytes written in this run (R33). -/
  out : List Byte
  /-- IN, the input bound by START: a parameter of the run (R38, 20_memory.md R50). -/
  input : List Byte
  /-- DELAY_MAX, the number of entries DL has: a parameter (R38, 00_scope.md R9; log 7). -/
  delayMax : Nat
  /-- FPFMT and `fdiv`, the configured gain division: a parameter, which no operation writes (R38, 00_scope.md R9;
  log 11). -/
  gain : GainUnit
  /-- The sink's settled answers to the coming writes, oldest first: a parameter of the run (R38, 20_memory.md R59;
  log 5). -/
  sink : List SinkAnswer
  /-- The MODEL's own: what the host has attached and START will bind (40_host_ops.md R108; log 3). -/
  attached : Attachment
  /-- The MODEL's own: the turns to come; the sequencer moves when it is empty (log 1). -/
  schedule : List Turn
  /-- The MODEL's own: how many writes have asked the sink, which indexes the free draw (log 5). -/
  sinkCount : Nat
  /-- The MODEL's own: the value the last RDREG returned to the host (40_host_ops.md R114; log 4). -/
  hostRead : Option Word64
deriving DecidableEq, Repr

/-- Why the machine stops. An engine fault of 60_exceptions.md R201 is NOT one of these: it is a next state with ERR
and PHASE written. No reachable state raises one of these (log 17). -/
inductive Fault where
  /-- Raised by ECHO.MIX and ECHO.FLUSH: an access to a delay-line entry outside 0 … DELAY − 1 or outside
  the DELAY_MAX entries present, which the spec does not define and which "cannot arise" (20_memory.md R66). Safe. -/
  | delayLineIndex
  /-- Raised by HDR.PATCH: an overwrite beyond the end of OUT, where `OutPatch` is not defined (20_memory.md R58).
  Safe. -/
  | patchOutOfRange
deriving DecidableEq, Repr

/-- Why an operation has no meaning in a state. -/
inductive Refusal where
  /-- An arm of `exec` that has no meaning yet (none is left). Safe. -/
  | notModelled (mnemonic : String)
  /-- Raised by a sequencer operation in a state whose selector does not enable it: it "is enabled exactly when its
  selector pattern matches" (41_sequencer_header.md R120). `step` never asks for one (log 14). Safe. -/
  | notEnabled
  /-- Raised by `step` on a selector of PHASE 10 … 15, "stuck" (30_encoding.md R92); no state has one (log 16).
  Safe. -/
  | noOperation
deriving DecidableEq, Repr

/-- The machine right after hardware reset (10_state.md R39, 70_reset_and_hazards.md R230). IDX, FLUSH_CNT and DL are
unspecified there: logs 8 and 9. Nothing is attached and no turn is scheduled: logs 1, 2 and 3. -/
def State.reset : State where
  phase := .idle
  err := .none
  mode := .echo
  delay := Config.delayDefault
  vscale := Config.vscaleDefault
  inPos := 0
  dl := []
  idx := 0
  flushCnt := 0
  out := []
  input := []
  delayMax := Config.delayMax
  gain := Config.gainDefault
  sink := []
  attached := ⟨[], []⟩
  schedule := []
  sinkCount := 0
  hostRead := Option.none

end Sys2Proof.Machine
end

