-- ==== Sys2Proof/Machine/Operands.lean ====
section
/-! DEFINITION. Operand forms: byte assembly, samples and size fields, and the integer arithmetic of the samples
(00_scope.md R11, R12; 30_encoding.md R76 to R79; 42_echo.md R151, R155; 43_downmix.md R181). -/

namespace Sys2Proof.Machine

open Sys2Proof

/-! ## Little-endian bytes (00_scope.md R12, 20_memory.md R60) -/

/-- `le16(b0, b1)`: the first byte is the less significant. -/
def le16 (b0 b1 : Byte) : Sample := b1 ++ b0

/-- `bytes16`: two bytes, the less significant first. -/
def bytes16 (w : Sample) : List Byte := [w.extractLsb' 0 8, w.extractLsb' 8 8]

/-- `bytes32`: four bytes, the least significant first. -/
def bytes32 (w : Word32) : List Byte :=
  [w.extractLsb' 0 8, w.extractLsb' 8 8, w.extractLsb' 16 8, w.extractLsb' 24 8]

/-- The 16-bit word whose bytes stand at offsets `k` and `k + 1` of a byte sequence that reaches past both. -/
def sampleAt (bs : List Byte) (k : Nat) : Sample := le16 (bs.getD k 0) (bs.getD (k + 1) 0)

/-! ## Integers of samples (00_scope.md R11) -/

/-- `enc16`, as the stored word: two's complement (30_encoding.md R76). -/
def enc16 (v : Int) : Sample := BitVec.ofInt 16 v

/-- `sat16`: clamp to −32768 … 32767. -/
def sat16 (n : Int) : Int := if n < -32768 then -32768 else if 32767 < n then 32767 else n

/-- The narrowing of a quotient: truncate toward zero and saturate; an infinity saturates by its sign
(42_echo.md R151). A NaN, which never arises under the default (R150), narrows to a free value (log 12). -/
def narrow (q : Word64) : Int :=
  if f64IsNaN q then (Config.narrowNaN q).toInt
  else if f64IsInf q then (if f64Sign q then -32768 else 32767)
  else sat16 (f64Trunc0 q)

/-- `scale(e)`, the scaled echo: one division by VSCALE in the configured gain unit, narrowed (42_echo.md R151). -/
def scale (gain : GainUnit) (vscale : Word64) (e : Int) : Int := narrow (gain.fdiv (f64OfInt e) vscale)

/-- The emitted sample of the mix: the exact sum of the raw sample and the scaled echo, clamped (42_echo.md R155). -/
def mix (s scaled : Int) : Int := sat16 (s + scaled)

/-- The halved difference, truncating toward zero (43_downmix.md R181). -/
def halfDiff (left right : Int) : Int := (left - right).tdiv 2

/-- The bytes of an emitted sample (30_encoding.md R76). -/
def sampleBytes (v : Int) : List Byte := bytes16 (enc16 v)

/-- A size field: its value modulo 2^32, little-endian (30_encoding.md R79, 41_sequencer_header.md R130). -/
def sizeField (n : Nat) : List Byte := bytes32 (BitVec.ofNat 32 n)

end Sys2Proof.Machine
end

