-- ==== Sys2Proof/Machine/Ops.lean ====
section
/-! DEFINITION. The named operations the meanings are made of: the delay line, the input stream, the output store and
its sink, taking a fault and its acknowledgement, the register views, and hardware reset (20_memory.md,
60_exceptions.md, 10_state.md). -/

namespace Sys2Proof.Machine

open Sys2Proof

/-! ## The delay line (20_memory.md R66) -/

/-- What an entry nothing has written reads as (log 9). -/
def memoryFill : Sample := 0#16

/-- `DL[i]`. -/
def Memory.read : Memory → Nat → Sample
  | [], _ => memoryFill
  | (a, x) :: m, i => if a = i then x else Memory.read m i

/-- An entry put at the front, unless it says what an unlisted index reads as. -/
def Memory.cons (i : Nat) (x : Sample) (m : Memory) : Memory := if x = memoryFill then m else (i, x) :: m

/-- `DL[i] <- x`, keeping the canonical form. -/
def Memory.write : Memory → Nat → Sample → Memory
  | [], i, x => Memory.cons i x []
  | (a, y) :: m, i, x =>
    if i < a then Memory.cons i x ((a, y) :: m)
    else if i = a then Memory.cons i x m
    else (a, y) :: Memory.write m i x

/-- `for i in 0 … n − 1: DL[i] <- 0` (42_echo.md R145): with 0 what an unlisted entry reads as, the entries below `n`
leave the list. -/
def Memory.zeroBelow (n : Nat) (m : Memory) : Memory := m.filter (fun c => decide (n ≤ c.1))

/-- The canonical form: indexes strictly rising, no listed entry that reads as an unlisted one. -/
def Memory.wf : Memory → Bool
  | [] => true
  | (a, x) :: m =>
    decide (x ≠ memoryFill) && m.head?.all (fun c => decide (a < c.1)) && Memory.wf m

/-- DELAY as a count: the value of a positive DELAY, 0 for every other (10_state.md R25). -/
def State.delayNat (s : State) : Nat := s.delay.toInt.toNat

/-- IDX names an entry in use and present: `0 ≤ IDX < DELAY`, and IDX below DELAY_MAX (20_memory.md R66). -/
def State.idxInLine (s : State) : Bool := decide (s.idx < s.delayNat) && decide (s.idx < s.delayMax)

/-- `IDX <- (IDX + 1) mod DELAY` (10_state.md R31). -/
def State.nextIdx (s : State) : Nat := (s.idx + 1) % s.delayNat

/-! ## Faults (60_exceptions.md R206) and their acknowledgement (R208) -/

/-- `fault(code)`: taking the engine's exception. ERR gets the code, PHASE becomes FAULT; nothing is saved and nothing
else changes (R206). -/
def State.takeFault (s : State) (code : Err) : State := { s with err := code, phase := .fault }

/-- What leaves FAULT, DONE and every other phase: `PHASE <- IDLE; ERR <- 0` (40_host_ops.md R110, 60_exceptions.md
R208). -/
def State.toIdle (s : State) : State := { s with phase := .idle, err := .none }

/-! ## The input stream (20_memory.md R52, R53) -/

/-- `InAvail()`. -/
def State.inAvail (s : State) : Nat := s.input.length - s.inPos

/-- The bytes `InRead(n)` returns. -/
def State.inBytes (s : State) (n : Nat) : List Byte := (s.input.drop s.inPos).take n

/-- What `InRead(n)` does to the state: `IN_POS <- IN_POS + n`. -/
def State.inConsume (s : State) (n : Nat) : State := { s with inPos := s.inPos + n }

/-! ## The output store and its sink (20_memory.md R57 to R59) -/

/-- The sink oracle's answer to the next write: the next settled one, else the environment's free draw (log 5). -/
def State.sinkAnswer (s : State) : SinkAnswer :=
  match s.sink with
  | a :: _ => a
  | [] => Config.sinkDraw s.sinkCount

/-- The oracle has been asked once. -/
def State.sinkAsked (s : State) : State := { s with sink := s.sink.tail, sinkCount := s.sinkCount + 1 }

/-- The bytes a failing write of `bs` leaves: the first `k`, and always fewer than all (20_memory.md R57; log 6). -/
def writtenOnFail (k : Nat) (bs : List Byte) : List Byte := bs.take (min k (bs.length - 1))

/-- `bs` laid over `out` from offset `off` (20_memory.md R58). -/
def overlay (out : List Byte) (off : Nat) (bs : List Byte) : List Byte :=
  out.take off ++ bs ++ out.drop (off + bs.length)

/-- `if OutAppend(bs) = fail then fault(code) else …` (20_memory.md R57). -/
def State.outAppend (s : State) (bs : List Byte) (code : Err) (onOk : State → State) : State :=
  match s.sinkAnswer with
  | .ok => onOk { s.sinkAsked with out := s.out ++ bs }
  | .fail k => { s.sinkAsked with out := s.out ++ writtenOnFail k bs }.takeFault code

/-- `if OutPatch(off, bs) = fail then fault(code) else …` (20_memory.md R58). -/
def State.outPatch (s : State) (off : Nat) (bs : List Byte) (code : Err) (onOk : State → State) : State :=
  match s.sinkAnswer with
  | .ok => onOk { s.sinkAsked with out := overlay s.out off bs }
  | .fail k => { s.sinkAsked with out := overlay s.out off (writtenOnFail k bs) }.takeFault code

/-! ## Codes and register views (10_state.md R22, R23, R27, R35) -/

/-- PHASE's number (10_state.md R22). -/
def Phase.code : Phase → BitVec 4
  | .idle => 0#4
  | .check => 1#4
  | .hdr => 2#4
  | .echoInit => 3#4
  | .echoRun => 4#4
  | .echoFlush => 5#4
  | .patch => 6#4
  | .dmxRun => 7#4
  | .done => 8#4
  | .fault => 9#4

/-- ERR's number (60_exceptions.md R201). -/
def Err.code : Err → BitVec 4
  | .none => 0#4
  | .errDelay => 1#4
  | .errVscale => 2#4
  | .errAlloc => 3#4
  | .errHdrRead => 4#4
  | .errHdrWrite => 5#4
  | .errWrite => 6#4
  | .errPatch => 7#4

/-- The STATUS view: bits 3:0 PHASE, bits 7:4 ERR, the rest 0 (10_state.md R27, 30_encoding.md R82). -/
def State.status (s : State) : Word64 := (s.err.code ++ s.phase.code).setWidth 64

/-- What a host read of a register returns (40_host_ops.md R114). -/
def State.readReg (s : State) : HostReg → Word64
  | .ctrl => 0#64
  | .status => s.status
  | .mode => (BitVec.ofBool (modeBit s.mode)).setWidth 64
  | .delay => s.delay.setWidth 64
  | .vscale => s.vscale
  | .inPos => BitVec.ofNat 64 s.inPos
  | .outLen => BitVec.ofNat 64 s.out.length
  | .reserved => 0#64

/-! ## The start of a run and hardware reset -/

/-- A run begins: IN and the sink are bound, IN_POS, OUT and ERR are cleared, PHASE becomes CHECK; MODE, DELAY, VSCALE,
DL, IDX and FLUSH_CNT keep what they hold (40_host_ops.md R108, 10_state.md R41). -/
def State.beginRun (s : State) : State :=
  { s with
    input := s.attached.input
    sink := s.attached.sink
    inPos := 0
    out := []
    err := .none
    phase := .check }

/-- Hardware reset applied to a machine in any state (70_reset_and_hazards.md R230): the registers of 10_state.md R39
take their reset values. DL "is not cleared by reset", and it, IDX and FLUSH_CNT, unspecified after it, are left as
they are (log 10). The parameters DELAY_MAX and the gain unit, what the host has attached, the turns to come and what
the host has read are not the engine's to clear. -/
def State.hardReset (s : State) : State :=
  { s with
    phase := .idle
    err := .none
    mode := .echo
    delay := Config.delayDefault
    vscale := Config.vscaleDefault
    inPos := 0
    out := []
    input := []
    sink := [] }

end Sys2Proof.Machine
end

