-- ==== Sys2Proof/Machine/Flags.lean ====
section
/-! DEFINITION. The engine has no status flags (10_state.md R36). What it tests instead is computed from state within
one step: the selector bit EXH, the selector, and the enabling of an operation (30_encoding.md R90, R91). The legality
of a VSCALE stands in Gain.lean. -/

namespace Sys2Proof.Machine

open Sys2Proof

/-- EXH, "exhausted", computed and not stored (30_encoding.md R90). -/
def State.exh (s : State) : Bool :=
  match s.phase with
  | .echoRun => decide (s.inAvail < 2)
  | .echoFlush => decide (s.delay.toInt ≤ (s.flushCnt : Int))
  | .dmxRun => decide (s.inAvail < 4)
  | .idle | .check | .hdr | .echoInit | .patch | .done | .fault => false

/-- `SS = PHASE : MODE : EXH` (30_encoding.md R90). -/
def State.selector (s : State) : Selector := seqSelector s.phase.code (modeBit s.mode) s.exh

/-- When an operation may execute. A host operation: in any phase (40_host_ops.md R100). A sequencer operation: as the
"enabled when" column of 30_encoding.md R91 says (41_sequencer_header.md R120). -/
def State.enables (s : State) : Instr → Bool
  | .rdreg _ | .nopwCtrl | .start | .abort | .nopwStatus | .setmode _ | .setdelay _ | .setvscale _
  | .nopwInPos | .nopwOutLen | .nopwReserved => true
  | .checkEcho => decide (s.phase = .check) && decide (s.mode = .echo)
  | .checkDmx => decide (s.phase = .check) && decide (s.mode = .downmix)
  | .hdrCopy => decide (s.phase = .hdr)
  | .echoInit => decide (s.phase = .echoInit)
  | .echoMix => decide (s.phase = .echoRun) && !s.exh
  | .echoEos => decide (s.phase = .echoRun) && s.exh
  | .echoFlush => decide (s.phase = .echoFlush) && !s.exh
  | .echoFlushend => decide (s.phase = .echoFlush) && s.exh
  | .hdrPatch => decide (s.phase = .patch)
  | .dmxPair => decide (s.phase = .dmxRun) && !s.exh
  | .dmxEos => decide (s.phase = .dmxRun) && s.exh

/-- A sequencer operation has its effect where it is enabled and none anywhere else (41_sequencer_header.md R120;
log 14). -/
def whenEnabled (i : Instr) (s : State) (effect : Host.Outcome State Fault Refusal) :
    Host.Outcome State Fault Refusal :=
  if s.enables i then effect else .refused .notEnabled

/-- Busy: PHASE in 1 … 7 (10_state.md R22). -/
def Phase.busy : Phase → Bool
  | .check | .hdr | .echoInit | .echoRun | .echoFlush | .patch | .dmxRun => true
  | .idle | .done | .fault => false

end Sys2Proof.Machine
end

