-- ==== Sys2Proof/Machine/Downmix.lean ====
section
/-! DEFINITION. The Downmix Filter: DMX.PAIR, DMX.EOS (43_downmix.md). -/

namespace Sys2Proof.Machine

open Sys2Proof

/-- The sample DMX.PAIR emits twice, left before right in the stream (R181, R182, 30_encoding.md R77). -/
def State.pairSample (s : State) : Int :=
  halfDiff (sampleAt (s.inBytes 4) 0).toInt (sampleAt (s.inBytes 4) 2).toInt

/-- The effect of DMX.PAIR: PHASE stays (R182). -/
def dmxPair (s : State) : State :=
  (s.inConsume 4).outAppend (sampleBytes s.pairSample ++ sampleBytes s.pairSample) .errWrite fun t => t

/-- DMX.PAIR (R182). -/
def execDmxPair (s : State) : Host.Outcome State Fault Refusal :=
  whenEnabled .dmxPair s (.next (dmxPair s))

/-- The effect of DMX.EOS: the leftover bytes are discarded (R186). -/
def dmxEos (s : State) : State := { s.inConsume s.inAvail with phase := .done }

/-- DMX.EOS (R186). -/
def execDmxEos (s : State) : Host.Outcome State Fault Refusal :=
  whenEnabled .dmxEos s (.next (dmxEos s))

end Sys2Proof.Machine
end

