-- ==== Sys2Proof/Machine/Echo.lean ====
section
/-! DEFINITION. The Echo Mixer: ECHO.INIT, ECHO.MIX, ECHO.EOS, ECHO.FLUSH, ECHO.FLUSHEND (42_echo.md). -/

namespace Sys2Proof.Machine

open Sys2Proof

/-- The effect of ECHO.INIT (R145). -/
def echoInit (s : State) : State :=
  { s with dl := Memory.zeroBelow s.delayNat s.dl, idx := 0, flushCnt := 0, phase := .echoRun }

/-- ECHO.INIT, which cannot fault (R145, 60_exceptions.md R204). -/
def execEchoInit (s : State) : Host.Outcome State Fault Refusal :=
  whenEnabled .echoInit s (.next (echoInit s))

/-- The raw input sample ECHO.MIX reads (R153). -/
def State.nextSample (s : State) : Sample := sampleAt (s.inBytes 2) 0

/-- The sample the delay line's cursor stands on, as an integer (R153 step 2a, R160). -/
def State.echoSample (s : State) : Int := (Memory.read s.dl s.idx).toInt

/-- The sample ECHO.MIX emits (R153 steps 2b to 2d). -/
def State.mixedSample (s : State) : Int := mix s.nextSample.toInt (scale s.gain s.vscale s.echoSample)

/-- The effect of ECHO.MIX: DL[IDX] is read before it is overwritten, and it is the raw sample that is stored
(R153, 70_reset_and_hazards.md R240, R241). A failing sink leaves DL and IDX as they were. -/
def echoMix (s : State) : State :=
  (s.inConsume 2).outAppend (sampleBytes s.mixedSample) .errWrite
    fun t => { t with dl := Memory.write t.dl t.idx s.nextSample, idx := t.nextIdx }

/-- ECHO.MIX (R153). -/
def execEchoMix (s : State) : Host.Outcome State Fault Refusal :=
  whenEnabled .echoMix s
    (if s.idxInLine = false then .fault .delayLineIndex else .next (echoMix s))

/-- The effect of ECHO.EOS: `if InAvail() = 1 then InRead(1)`; the stray byte is discarded (R157). -/
def echoEos (s : State) : State :=
  { (if s.inAvail = 1 then s.inConsume 1 else s) with phase := .echoFlush }

/-- ECHO.EOS (R157). -/
def execEchoEos (s : State) : Host.Outcome State Fault Refusal :=
  whenEnabled .echoEos s (.next (echoEos s))

/-- The effect of ECHO.FLUSH: one tail sample; DL is read and not written (R160). -/
def echoFlush (s : State) : State :=
  s.outAppend (sampleBytes (scale s.gain s.vscale s.echoSample)) .errWrite
    fun t => { t with idx := t.nextIdx, flushCnt := t.flushCnt + 1 }

/-- ECHO.FLUSH (R160). -/
def execEchoFlush (s : State) : Host.Outcome State Fault Refusal :=
  whenEnabled .echoFlush s
    (if s.idxInLine = false then .fault .delayLineIndex else .next (echoFlush s))

/-- ECHO.FLUSHEND (R165). -/
def execEchoFlushend (s : State) : Host.Outcome State Fault Refusal :=
  whenEnabled .echoFlushend s (.next { s with phase := .patch })

end Sys2Proof.Machine
end

