-- ==== Sys2Proof/Machine/Header.lean ====
section
/-! DEFINITION. The operations at the start and the end of a run: CHECK.ECHO, CHECK.DMX, HDR.COPY, HDR.PATCH
(41_sequencer_header.md). -/

namespace Sys2Proof.Machine

open Sys2Proof

/-- The effect of CHECK.ECHO: the first cause that holds faults, in the order ERR_DELAY, ERR_VSCALE, ERR_ALLOC
(R121, 60_exceptions.md R210). -/
def checkEcho (s : State) : State :=
  if s.delay.toInt ≤ 0 then s.takeFault .errDelay
  else if s.gain.accepts s.vscale = false then s.takeFault .errVscale
  else if (s.delayMax : Int) < s.delay.toInt then s.takeFault .errAlloc
  else { s with phase := .hdr }

/-- CHECK.ECHO (R121). -/
def execCheckEcho (s : State) : Host.Outcome State Fault Refusal :=
  whenEnabled .checkEcho s (.next (checkEcho s))

/-- CHECK.DMX: nothing to validate (R123). -/
def execCheckDmx (s : State) : Host.Outcome State Fault Refusal :=
  whenEnabled .checkDmx s (.next { s with phase := .hdr })

/-- The phase HDR.COPY goes on to: by MODE (R125). -/
def firstPhaseOf : Mode → Phase
  | .echo => .echoInit
  | .downmix => .dmxRun

/-- The effect of HDR.COPY: the block is moved whole or not at all on the input side (R125). -/
def hdrCopy (s : State) : State :=
  if s.inAvail < hdrSize then s.takeFault .errHdrRead
  else (s.inConsume hdrSize).outAppend (s.inBytes hdrSize) .errHdrWrite
    fun t => { t with phase := firstPhaseOf t.mode }

/-- HDR.COPY (R125). -/
def execHdrCopy (s : State) : Host.Outcome State Fault Refusal :=
  whenEnabled .hdrCopy s (.next (hdrCopy s))

/-- The effect of HDR.PATCH: the field at offset 4 first, then the field at offset 40, stopping at the first failure
(R130). -/
def hdrPatch (s : State) : State :=
  s.outPatch riffOff (sizeField (s.out.length - 8)) .errPatch fun t =>
    t.outPatch dataOff (sizeField (s.out.length - hdrSize)) .errPatch fun u => { u with phase := .done }

/-- HDR.PATCH (R130). `OutPatch` is defined only inside OUT (20_memory.md R58; log 17). -/
def execHdrPatch (s : State) : Host.Outcome State Fault Refusal :=
  whenEnabled .hdrPatch s
    (if s.out.length < hdrSize then .fault .patchOutOfRange else .next (hdrPatch s))

end Sys2Proof.Machine
end

