-- ==== Sys2Proof/Machine/HostOps.lean ====
section
/-! DEFINITION. The seven host operations, NOPW in its five forms (40_host_ops.md). They execute in every phase and
raise no fault (R100). -/

namespace Sys2Proof.Machine

open Sys2Proof

/-- A configuration write or START: it takes effect only in IDLE, and is ignored in full in every other phase
(40_host_ops.md R100). -/
def State.inIdle (s : State) (effect : State → State) : State :=
  if s.phase = .idle then effect s else s

/-- RDREG r: returns a 64-bit value and changes no state of the engine (R114; log 4). -/
def execRdreg (r : HostReg) (s : State) : Host.Outcome State Fault Refusal :=
  .next { s with hostRead := some (s.readReg r) }

/-- NOPW, a write of CTRL with neither bit set: no effect (R112). -/
def execNopwCtrl (s : State) : Host.Outcome State Fault Refusal := .next s

/-- START (R108). -/
def execStart (s : State) : Host.Outcome State Fault Refusal := .next (s.inIdle State.beginRun)

/-- ABORT, accepted in every phase (R110). -/
def execAbort (s : State) : Host.Outcome State Fault Refusal := .next s.toIdle

/-- NOPW, a write of STATUS: no effect (R112). -/
def execNopwStatus (s : State) : Host.Outcome State Fault Refusal := .next s

/-- SETMODE m (R102). -/
def execSetmode (m : Mode) (s : State) : Host.Outcome State Fault Refusal :=
  .next (s.inIdle fun t => { t with mode := m })

/-- SETDELAY n: every value is stored as written (R104). -/
def execSetdelay (n : Int) (s : State) : Host.Outcome State Fault Refusal :=
  .next (s.inIdle fun t => { t with delay := BitVec.ofInt 32 n })

/-- SETVSCALE v: stored bit for bit (R106). -/
def execSetvscale (v : Word64) (s : State) : Host.Outcome State Fault Refusal :=
  .next (s.inIdle fun t => { t with vscale := v })

/-- NOPW, a write of IN_POS: no effect (R112). -/
def execNopwInPos (s : State) : Host.Outcome State Fault Refusal := .next s

/-- NOPW, a write of OUT_LEN: no effect (R112). -/
def execNopwOutLen (s : State) : Host.Outcome State Fault Refusal := .next s

/-- NOPW, a write of register 7: no effect (R112). -/
def execNopwReserved (s : State) : Host.Outcome State Fault Refusal := .next s

end Sys2Proof.Machine
end

