-- ==== Sys2Proof/Machine/Dispatch.lean ====
section
/-! DEFINITION. One arm per operation. -/

namespace Sys2Proof.Machine

open Sys2Proof

def exec (i : Instr) (s : State) : Host.Outcome State Fault Refusal :=
  match i with
  -- host operations, 40_host_ops.md
  | .rdreg r => Sys2Proof.Machine.execRdreg r s
  | .nopwCtrl => Sys2Proof.Machine.execNopwCtrl s
  | .start => Sys2Proof.Machine.execStart s
  | .abort => Sys2Proof.Machine.execAbort s
  | .nopwStatus => Sys2Proof.Machine.execNopwStatus s
  | .setmode m => Sys2Proof.Machine.execSetmode m s
  | .setdelay n => Sys2Proof.Machine.execSetdelay n s
  | .setvscale v => Sys2Proof.Machine.execSetvscale v s
  | .nopwInPos => Sys2Proof.Machine.execNopwInPos s
  | .nopwOutLen => Sys2Proof.Machine.execNopwOutLen s
  | .nopwReserved => Sys2Proof.Machine.execNopwReserved s
  -- sequencer operations, 41_sequencer_header.md, 42_echo.md, 43_downmix.md
  | .checkEcho => Sys2Proof.Machine.execCheckEcho s
  | .checkDmx => Sys2Proof.Machine.execCheckDmx s
  | .hdrCopy => Sys2Proof.Machine.execHdrCopy s
  | .echoInit => Sys2Proof.Machine.execEchoInit s
  | .echoMix => Sys2Proof.Machine.execEchoMix s
  | .echoEos => Sys2Proof.Machine.execEchoEos s
  | .echoFlush => Sys2Proof.Machine.execEchoFlush s
  | .echoFlushend => Sys2Proof.Machine.execEchoFlushend s
  | .hdrPatch => Sys2Proof.Machine.execHdrPatch s
  | .dmxPair => Sys2Proof.Machine.execDmxPair s
  | .dmxEos => Sys2Proof.Machine.execDmxEos s

end Sys2Proof.Machine
end

