-- ==== Sys2Proof/Machine/Fetch.lean ====
section
/-! DEFINITION. Which operation the next step runs. The engine fetches no instructions (20_memory.md R69): a host
operation is selected by its transaction word, a sequencer operation by the selector computed from the state
(30_encoding.md R84, R88, R90). -/

namespace Sys2Proof.Machine

open Sys2Proof

/-- What the next step does. -/
inductive Fetched where
  /-- Run this operation on this state. -/
  | run (i : Instr) (s : State)
  /-- No operation runs: the sequencer is quiescent, or the turn was the host's attaching or the environment's
  reset. -/
  | settle (s : State)
  /-- The selector is one of PHASE 10 … 15 (30_encoding.md R92). -/
  | stuck
deriving DecidableEq, Repr

/-- The sequencer's turn: the operation its selector selects; where it is quiescent nothing happens, "this is not an
error" (30_encoding.md R90, R92; log 15). -/
def fetchSequencer (s : State) : Fetched :=
  match decodeSeq s.selector with
  | .ok i => .run i s
  | .error .quiescent => .settle s
  | .error .noPhase => .stuck

/-- The next turn: the schedule's first, or the sequencer's where the schedule is empty (log 1). -/
def fetch (s : State) : Fetched :=
  match s.schedule with
  | [] => fetchSequencer s
  | .sequencer :: rest => fetchSequencer { s with schedule := rest }
  | .transaction ht :: rest => .run (decodeHost ht) { s with schedule := rest }
  | .attach a :: rest => .settle { s with schedule := rest, attached := a }
  | .reset :: rest => .settle { s with schedule := rest }.hardReset

/-- The state in which the sequencer's selector is `ss`: PHASE and MODE are the selector's, and where the phase
computes EXH, IN is cut or lengthened with zeros, or FLUSH_CNT set, so that EXH is the selector's bit 0. A selector
with no phase of 1 … 7 changes nothing. -/
def State.placeSelector (s : State) (ss : Selector) : State :=
  let t := { s with mode := modeOfBit (ss.getLsbD 1) }
  let exh := ss.getLsbD 0
  match (ss.extractLsb' 2 4).toNat with
  | 1 => { t with phase := .check }
  | 2 => { t with phase := .hdr }
  | 3 => { t with phase := .echoInit }
  | 4 => { t with phase := .echoRun, input := placeInput t exh 2 }
  | 5 => { t with phase := .echoFlush, flushCnt := if exh then max t.flushCnt t.delayNat else min t.flushCnt (t.delayNat - 1) }
  | 6 => { t with phase := .patch, out := t.out ++ List.replicate (hdrSize - t.out.length) 0#8 }
  | 7 => { t with phase := .dmxRun, input := placeInput t exh 4 }
  | _ => s
where
  /-- IN with fewer than `unit` bytes left after IN_POS, or with at least `unit`. -/
  placeInput (s : State) (exh : Bool) (unit : Nat) : List Byte :=
    if exh then s.input.take (s.inPos + unit - 1)
    else s.input ++ List.replicate (s.inPos + unit - s.input.length) 0#8

/-- The state whose next turn runs the operation of a word: a transaction word is the schedule's first turn, a
selector is computed by the state, whose next turn is the sequencer's (log 2). -/
def State.placeCode (s : State) : Code → State
  | .host ht => { s with schedule := .transaction ht :: s.schedule }
  | .seq ss => { s.placeSelector ss with schedule := .sequencer :: s.schedule }

end Sys2Proof.Machine
end

