-- ==== Sys2Proof/Machine/Step.lean ====
section
/-! DEFINITION. One step: the next turn, taken whole (00_scope.md R14, 40_host_ops.md R100). -/

namespace Sys2Proof.Machine

open Sys2Proof

/-- One atomic step of the machine: what the next turn fetches is run. -/
def step (s : State) : Host.Outcome State Fault Refusal :=
  match fetch s with
  | .run i t => exec i t
  | .settle t => .next t
  | .stuck => .refused .noOperation

/-- `s` with the operation of a table word placed where the next step takes its operation from (log 2). -/
def State.withFetchWord (s : State) (nbits w : Nat) : State :=
  match codeOfTableWord nbits w with
  | none => s
  | some c => s.placeCode c

end Sys2Proof.Machine
end

