-- ==== Sys2Proof/Safety.lean ====
section
/-! DEFINITION. What counts as a good state and a good run: the invariant of every reachable state, the closed forms of
the two pipelines, the history a state must agree with, the phase graph, and the number of steps a run has left
(10_state.md, 20_memory.md R63, 42_echo.md R170, 43_downmix.md R190, 60_exceptions.md R207, 41_sequencer_header.md
R119, 70_reset_and_hazards.md R247). -/

namespace Sys2Proof.Machine

open Sys2Proof

/-! ## The run's result -/

/-- The run's result: OUT, in DONE and in no other phase (10_state.md R43). -/
def State.result (s : State) : Option (List Byte) := if s.phase = .done then some s.out else none

/-! ## The invariant -/

/-- A configuration CHECK.ECHO accepts (41_sequencer_header.md R121). -/
def State.echoConfigLegal (s : State) : Prop :=
  0 < s.delay.toInt ∧ s.delay.toInt ≤ (s.delayMax : Int) ∧ s.gain.accepts s.vscale = true

/-- The phases after CHECK in which an echo run is under way. -/
def Phase.echoOnly : Phase → Bool
  | .echoInit | .echoRun | .echoFlush | .patch => true
  | .idle | .check | .hdr | .dmxRun | .done | .fault => false

/-- What holds of every reachable state, whatever its run has read and written. -/
structure State.Inv (s : State) : Prop where
  /-- The delay line is in canonical form. -/
  dlCanonical : Memory.wf s.dl = true
  /-- DELAY_MAX is in its range (00_scope.md R9). -/
  capacity : 1 ≤ s.delayMax ∧ s.delayMax ≤ 2147483647
  /-- ERR ≠ 0 exactly when PHASE = FAULT (10_state.md R23). -/
  errInFault : s.err ≠ .none ↔ s.phase = .fault
  /-- IN_POS never exceeds |IN| (10_state.md R29). -/
  inPosBound : s.inPos ≤ s.input.length
  /-- MODE = 0 in the echo phases (30_encoding.md R91). -/
  echoMode : s.phase.echoOnly = true → s.mode = .echo
  /-- MODE = 1 in DMX_RUN (30_encoding.md R91). -/
  downmixMode : s.phase = .dmxRun → s.mode = .downmix
  /-- Past CHECK, an echo run's configuration is legal (41_sequencer_header.md R121). -/
  echoLegal : s.phase.echoOnly = true ∨ (s.phase = .hdr ∧ s.mode = .echo) → s.echoConfigLegal
  /-- Before HDR.COPY nothing is read or written (40_host_ops.md R108). -/
  fresh : s.phase = .check ∨ s.phase = .hdr → s.inPos = 0 ∧ s.out = []
  /-- Past HDR.COPY the header is in OUT (41_sequencer_header.md R125). -/
  headerOut : s.phase.echoOnly = true ∨ s.phase = .dmxRun → hdrSize ≤ s.inPos ∧ hdrSize ≤ s.out.length
  /-- The cursor is in the line and the flush count is at most DELAY (10_state.md R31, R32). -/
  cursor : s.phase = .echoRun ∨ s.phase = .echoFlush → s.idx < s.delayNat ∧ s.flushCnt ≤ s.delayNat
  /-- No tail sample is out before the flush. -/
  noFlushYet : s.phase = .echoRun → s.flushCnt = 0

/-! ## Closed forms of the output -/

/-- N, the complete samples of the data part (00_scope.md R17). -/
def sampleCount (input : List Byte) : Nat := (input.length - hdrSize) / 2

/-- P, the complete pairs of the data part (43_downmix.md R180). -/
def pairCount (input : List Byte) : Nat := (input.length - hdrSize) / 4

/-- `in[j]`, with 0 for every `j < 0` (42_echo.md R140, R170). -/
def inSample (input : List Byte) (j : Int) : Int :=
  if j < 0 then 0 else (sampleAt input (hdrSize + 2 * j.toNat)).toInt

/-- `out[i]` of an echo run: the mix for `i < N`, the tail from N on (42_echo.md R170). -/
def echoOut (gain : GainUnit) (vscale : Word64) (delay : Nat) (input : List Byte) (i : Nat) : Int :=
  if i < sampleCount input then mix (inSample input i) (scale gain vscale (inSample input (i - delay)))
  else scale gain vscale (inSample input (i - delay))

/-- The first `n` output samples of an echo run, as bytes. -/
def echoData (gain : GainUnit) (vscale : Word64) (delay : Nat) (input : List Byte) (n : Nat) : List Byte :=
  (List.range n).flatMap fun i => sampleBytes (echoOut gain vscale delay input i)

/-- `d` of pair `p` (43_downmix.md R190). -/
def pairOut (input : List Byte) (p : Nat) : Int :=
  halfDiff (sampleAt input (hdrSize + 4 * p)).toInt (sampleAt input (hdrSize + 4 * p + 2)).toInt

/-- The bytes of an output pair `(d, d)`. -/
def pairBytes (d : Int) : List Byte := sampleBytes d ++ sampleBytes d

/-- The first `n` output pairs of a downmix run, as bytes. -/
def pairData (input : List Byte) (n : Nat) : List Byte :=
  (List.range n).flatMap fun p => pairBytes (pairOut input p)

/-- The Header Block of IN (20_memory.md R62). -/
def headerOf (input : List Byte) : List Byte := input.take hdrSize

/-- A header with both size fields rewritten for a total length (41_sequencer_header.md R132). -/
def patchedHeader (header : List Byte) (total : Nat) : List Byte :=
  header.take riffOff ++ sizeField (total - 8) ++ (header.drop 8).take 32 ++ sizeField (total - hdrSize)

/-! ## The history a state agrees with -/

/-- After `n` samples of this run the delay line holds the last DELAY of them, oldest first in circular order
(10_state.md R37). -/
def State.lineHolds (s : State) (n : Nat) : Prop :=
  ∀ k, k < s.delayNat →
    (Memory.read s.dl ((n + k) % s.delayNat)).toInt = inSample s.input (n - s.delayNat + k)

/-- The first `n` output samples of this echo run. -/
def State.echoDataSoFar (s : State) (n : Nat) : List Byte := echoData s.gain s.vscale s.delayNat s.input n

/-- How many samples an echo run emits (42_echo.md R170). -/
def State.echoTotal (s : State) : Nat := sampleCount s.input + s.delayNat

/-- What a fault leaves, by its code (60_exceptions.md R207). -/
def State.faultTrace (s : State) : Prop :=
  match s.err with
  | .none => True
  | .errDelay | .errVscale | .errAlloc | .errHdrRead => s.inPos = 0 ∧ s.out = []
  | .errHdrWrite => s.inPos = hdrSize ∧ ∃ k, k < hdrSize ∧ s.out = (headerOf s.input).take k
  | .errWrite =>
    match s.mode with
    | .echo =>
      (∃ n k, k < 2 ∧ s.inPos = hdrSize + 2 * (n + 1) ∧
        s.out = headerOf s.input ++ s.echoDataSoFar n ++
          (sampleBytes (echoOut s.gain s.vscale s.delayNat s.input n)).take k) ∨
      (∃ j k, j < s.delayNat ∧ k < 2 ∧ s.inPos = s.input.length ∧
        s.out = headerOf s.input ++ s.echoDataSoFar (sampleCount s.input + j) ++
          (sampleBytes (echoOut s.gain s.vscale s.delayNat s.input (sampleCount s.input + j))).take k)
    | .downmix =>
      ∃ p k, k < 4 ∧ s.inPos = hdrSize + 4 * (p + 1) ∧
        s.out = headerOf s.input ++ pairData s.input p ++ (pairBytes (pairOut s.input p)).take k
  | .errPatch =>
    s.inPos = s.input.length ∧ s.out.length = hdrSize + 2 * s.echoTotal ∧
      s.out.take riffOff = (headerOf s.input).take riffOff ∧
      (s.out.drop 8).take 32 = ((headerOf s.input).drop 8).take 32 ∧
      s.out.drop hdrSize = s.echoDataSoFar s.echoTotal

/-- What each phase's IN_POS, OUT, DL and IDX are, as functions of the run's input and configuration
(10_state.md R37, 20_memory.md R63, 42_echo.md R170, 43_downmix.md R190, 60_exceptions.md R207). -/
def State.trace (s : State) : Prop :=
  match s.phase with
  | .idle | .check | .hdr => True
  | .echoInit => s.inPos = hdrSize ∧ s.out = headerOf s.input
  | .echoRun =>
    ∃ n, s.inPos = hdrSize + 2 * n ∧ s.out = headerOf s.input ++ s.echoDataSoFar n ∧
      s.idx = n % s.delayNat ∧ s.lineHolds n
  | .echoFlush =>
    s.inPos = s.input.length ∧
      s.out = headerOf s.input ++ s.echoDataSoFar (sampleCount s.input + s.flushCnt) ∧
      s.idx = (sampleCount s.input + s.flushCnt) % s.delayNat ∧ s.lineHolds (sampleCount s.input)
  | .patch =>
    s.inPos = s.input.length ∧ s.out = headerOf s.input ++ s.echoDataSoFar s.echoTotal
  | .dmxRun =>
    ∃ p, s.inPos = hdrSize + 4 * p ∧ s.out = headerOf s.input ++ pairData s.input p
  | .done =>
    hdrSize ≤ s.input.length ∧ s.inPos = s.input.length ∧
      s.out = match s.mode with
        | .echo => patchedHeader (headerOf s.input) (hdrSize + 2 * s.echoTotal) ++ s.echoDataSoFar s.echoTotal
        | .downmix => headerOf s.input ++ pairData s.input (pairCount s.input)
  | .fault => s.faultTrace

/-- The whole invariant of a run. -/
def State.RunInv (s : State) : Prop := s.Inv ∧ s.trace

/-! ## A named property of a gain unit (42_echo.md R150, 93_implementation_defined.md U2) -/

/-- At these operands the unit gives an exact quotient exactly: where some finite `q` has the magnitude of `a / b`, the
quotient is finite, has that magnitude and, unless it is a zero, the sign of `a / b`. Magnitudes are in units of
2^−1074, so `q` has the magnitude of `a / b` when `f64Mag q * f64Mag b = f64Mag a * f64One`. -/
def GainUnit.ExactAt (g : GainUnit) (a b : Word64) : Prop :=
  ∀ q : Word64, f64Finite q = true → f64Mag q * f64Mag b = f64Mag a * f64One →
    f64Finite (g.fdiv a b) = true ∧ f64Mag (g.fdiv a b) = f64Mag q ∧
      (f64Mag q ≠ 0 → f64Sign (g.fdiv a b) = (f64Sign a != f64Sign b))

/-! ## The phase graph and the length of a run -/

/-- The edges of the phase graph, by operation: the phases an operation may leave a state of phase `p` in
(41_sequencer_header.md R119). -/
def phaseEdge (i : Instr) (p q : Phase) : Bool :=
  match i with
  | .rdreg _ | .nopwCtrl | .nopwStatus | .setmode _ | .setdelay _ | .setvscale _
  | .nopwInPos | .nopwOutLen | .nopwReserved => q == p
  | .start => if p = .idle then q == .check else q == p
  | .abort => q == .idle
  | .checkEcho => p == .check && (q == .hdr || q == .fault)
  | .checkDmx => p == .check && q == .hdr
  | .hdrCopy => p == .hdr && (q == .echoInit || q == .dmxRun || q == .fault)
  | .echoInit => p == .echoInit && q == .echoRun
  | .echoMix => p == .echoRun && (q == .echoRun || q == .fault)
  | .echoEos => p == .echoRun && q == .echoFlush
  | .echoFlush => p == .echoFlush && (q == .echoFlush || q == .fault)
  | .echoFlushend => p == .echoFlush && q == .patch
  | .hdrPatch => p == .patch && (q == .done || q == .fault)
  | .dmxPair => p == .dmxRun && (q == .dmxRun || q == .fault)
  | .dmxEos => p == .dmxRun && q == .done

/-- The codes an operation's fault may give (60_exceptions.md R201). -/
def faultCodes : Instr → List Err
  | .checkEcho => [.errDelay, .errVscale, .errAlloc]
  | .hdrCopy => [.errHdrRead, .errHdrWrite]
  | .echoMix | .echoFlush | .dmxPair => [.errWrite]
  | .hdrPatch => [.errPatch]
  | .rdreg _ | .nopwCtrl | .start | .abort | .nopwStatus | .setmode _ | .setdelay _ | .setvscale _
  | .nopwInPos | .nopwOutLen | .nopwReserved
  | .checkDmx | .echoInit | .echoEos | .echoFlushend | .dmxEos => []

/-- The sequencer operations a run that meets no fault still has before it (70_reset_and_hazards.md R247). -/
def State.stepsLeft (s : State) : Nat :=
  match s.phase with
  | .check =>
    match s.mode with
    | .echo => s.echoTotal + 6
    | .downmix => pairCount s.input + 3
  | .hdr =>
    match s.mode with
    | .echo => s.echoTotal + 5
    | .downmix => pairCount s.input + 2
  | .echoInit => s.inAvail / 2 + s.delayNat + 4
  | .echoRun => s.inAvail / 2 + s.delayNat + 3
  | .echoFlush => s.delayNat - s.flushCnt + 2
  | .patch => 1
  | .dmxRun => s.inAvail / 4 + 1
  | .idle | .done | .fault => 0

/-- The sink has settled on success for at least `n` writes (20_memory.md R59). -/
def State.sinkOkFor (s : State) (n : Nat) : Prop := n ≤ s.sink.length ∧ ∀ a ∈ s.sink, a = .ok

/-- Two machines that differ at most in what an earlier run, or reset, left in the delay line, its cursor and the flush
count: while the two echo loops read these, they agree on all that is read (10_state.md R41). -/
def State.sameRun (s t : State) : Prop :=
  t = { s with dl := t.dl, idx := t.idx, flushCnt := t.flushCnt } ∧
    (s.phase = .echoRun ∨ s.phase = .echoFlush →
      t.idx = s.idx ∧ t.flushCnt = s.flushCnt ∧ ∀ i, i < s.delayNat → Memory.read t.dl i = Memory.read s.dl i)

end Sys2Proof.Machine
end

