-- ==== Sys2Proof/Certificates/Slice0/Obligations.lean ====
section
/-! DEFINITION. The statements for the provers: what the spec's numbered rules say the operations, the decoder, the
arithmetic and the machine do. Frames are full: where a next state is written as a record update, every field not named
is unchanged. -/

open Sys2Proof Sys2Proof.Machine

/-! ## Encoding -/

/-- Decoding the word of a well-formed operation gives the operation back, for every operand the encoding admits
(30_encoding.md R85, R86, R88, R90, R91). -/
def Obligations.DecodeEncodeRoundTrip : Prop :=
  ∀ i : Instr, i.wellFormed = true → decode (encode i) = .ok i

/-- Words of 95_test_vectors.md V2 and selectors of 30_encoding.md R91 decode to the operation they stand for. -/
def Obligations.KnownWordsDecode : Prop :=
  decode (.host 0x30000000000000000#68) = .ok (.rdreg .delay) ∧
  decode (.host 0xAFFFFFFFFFFFFFFFE#68) = .ok (.setmode .echo) ∧
  decode (.host 0xBABCDEF01FFFFFFFF#68) = .ok (.setdelay (-1)) ∧
  decode (.host 0xC7FF8000000000001#68) = .ok (.setvscale 0x7FF8000000000001#64) ∧
  decode (.host 0x80000000000000001#68) = .ok .start ∧
  decode (.host 0x80000000000000003#68) = .ok .abort ∧
  decode (.host 0x900000000000000FF#68) = .ok .nopwStatus ∧
  decode (.host 0xF0000000000000001#68) = .ok .nopwReserved ∧
  decode (.seq 0b000110#6) = .ok .checkDmx ∧
  decode (.seq 0b010001#6) = .ok .echoEos ∧
  decode (.seq 0b011100#6) = .ok .dmxPair

/-- Every transaction word selects the operation of exactly one row: the rows are disjoint and cover all selectors
(30_encoding.md R88). -/
def Obligations.HostWordSelectsExactlyItsRow : Prop :=
  ∀ ht : HostWord,
    (decodeHost ht).format = .host ∧ (decodeHost ht).row.selects (.host ht) = true ∧
    ∀ i : Instr, i.row.selects (.host ht) = true → i.row = (decodeHost ht).row

/-- A sequencer selector decodes to an operation exactly when it matches the operation's row (30_encoding.md R91). -/
def Obligations.SequencerSelectorDecodesByItsRow : Prop :=
  ∀ (ss : Selector) (i : Instr), decodeSeq ss = .ok i ↔ i.row.selects (.seq ss) = true

/-- Which bits of a transaction word each host operation is made of (30_encoding.md R86): no other bit matters. -/
def Obligations.HostOperandsComeFromTheirBits : Prop :=
  ∀ ht : HostWord,
    (ht.getLsbD 67 = false → ∃ r, decodeHost ht = .rdreg r ∧ hostRegNumber r = ht.extractLsb' 64 3) ∧
    (ht.getLsbD 67 = true →
      (ht.extractLsb' 64 3 = 0#3 →
        decodeHost ht =
          if ht.getLsbD 1 then .abort else if ht.getLsbD 0 then .start else .nopwCtrl) ∧
      (ht.extractLsb' 64 3 = 1#3 → decodeHost ht = .nopwStatus) ∧
      (ht.extractLsb' 64 3 = 2#3 → decodeHost ht = .setmode (if ht.getLsbD 0 then .downmix else .echo)) ∧
      (ht.extractLsb' 64 3 = 3#3 → decodeHost ht = .setdelay (ht.extractLsb' 0 32).toInt) ∧
      (ht.extractLsb' 64 3 = 4#3 → decodeHost ht = .setvscale (ht.extractLsb' 0 64)) ∧
      (ht.extractLsb' 64 3 = 5#3 → decodeHost ht = .nopwInPos) ∧
      (ht.extractLsb' 64 3 = 6#3 → decodeHost ht = .nopwOutLen) ∧
      (ht.extractLsb' 64 3 = 7#3 → decodeHost ht = .nopwReserved))

/-! ## The step -/

/-- A step runs the decoded operation on the state its turn has left: a scheduled transaction's operation, or the
operation the sequencer's selector selects (30_encoding.md R84, R90; the schedule is the model's, log 1). -/
def Obligations.StepRunsTheDecodedOperation : Prop :=
  ∀ (s : State) (i : Instr),
    (∀ ht rest, s.schedule = .transaction ht :: rest → decode (.host ht) = .ok i →
      step s = exec i { s with schedule := rest }) ∧
    (∀ rest, s.schedule = .sequencer :: rest → decode (.seq s.selector) = .ok i →
      step s = exec i { s with schedule := rest }) ∧
    (s.schedule = [] → decode (.seq s.selector) = .ok i → step s = exec i s)

/-- In IDLE, DONE and FAULT no sequencer operation is enabled and the sequencer's turn changes nothing (30_encoding.md
R92, 10_state.md R43; that the turn is a next state is the model's reading, log 15). -/
def Obligations.QuiescentSequencerChangesNothing : Prop :=
  ∀ s : State, s.phase = .idle ∨ s.phase = .done ∨ s.phase = .fault →
    decodeSeq s.selector = .error .quiescent ∧
    (∀ i : Instr, i.format = .seq → s.enables i = false) ∧
    (s.schedule = [] → step s = .next s) ∧
    (∀ rest, s.schedule = .sequencer :: rest → step s = .next { s with schedule := rest })

/-- A sequencer operation is enabled exactly when the selector computed from the state selects it, so at most one is
(30_encoding.md R90, R91; 41_sequencer_header.md R120). -/
def Obligations.EnabledExactlyWhenSelected : Prop :=
  ∀ (s : State) (i : Instr), i.format = .seq → (s.enables i = true ↔ decodeSeq s.selector = .ok i)

/-- A sequencer operation asked for where it is not enabled is refused by name (the model's choice, log 14, from
41_sequencer_header.md R120). -/
def Obligations.DisabledOperationIsRefused : Prop :=
  ∀ (s : State) (i : Instr), i.format = .seq → s.enables i = false → exec i s = .refused .notEnabled

/-- No state's selector is one of the reserved ones, so a step is never refused (30_encoding.md R92, R88; log 16). -/
def Obligations.StepIsNeverRefused : Prop :=
  ∀ s : State, ∀ r : Refusal, step s ≠ .refused r

/-! ## Host operations -/

/-- SETMODE, from its transaction word (W = 1, RN = 2): in IDLE MODE becomes DATA[0], and in every other phase nothing
changes; no other bit of DATA matters (40_host_ops.md R102). -/
def Obligations.SetmodeEffect : Prop :=
  ∀ (ht : HostWord) (s : State), ht.getLsbD 67 = true → ht.extractLsb' 64 3 = 2#3 →
    decodeHost ht = .setmode (if ht.getLsbD 0 then .downmix else .echo) ∧
    (s.phase = .idle →
      exec (.setmode (if ht.getLsbD 0 then .downmix else .echo)) s =
        .next { s with mode := if ht.getLsbD 0 then .downmix else .echo }) ∧
    (s.phase ≠ .idle → exec (.setmode (if ht.getLsbD 0 then .downmix else .echo)) s = .next s)

/-- SETDELAY, from its transaction word: in IDLE the register becomes DATA[31:0], whatever it is, and reads as its
two's-complement value; in every other phase nothing changes (40_host_ops.md R104). -/
def Obligations.SetdelayEffect : Prop :=
  ∀ (ht : HostWord) (s : State), ht.getLsbD 67 = true → ht.extractLsb' 64 3 = 3#3 →
    decodeHost ht = .setdelay (ht.extractLsb' 0 32).toInt ∧
    (s.phase = .idle →
      exec (.setdelay (ht.extractLsb' 0 32).toInt) s = .next { s with delay := ht.extractLsb' 0 32 }) ∧
    (s.phase ≠ .idle → exec (.setdelay (ht.extractLsb' 0 32).toInt) s = .next s)

/-- SETVSCALE, from its transaction word (W = 1, RN = 4): in IDLE it stores DATA bit for bit, zeros, infinities and NaNs
included, and in every other phase nothing changes (40_host_ops.md R106). -/
def Obligations.SetvscaleEffect : Prop :=
  ∀ (ht : HostWord) (s : State), ht.getLsbD 67 = true → ht.extractLsb' 64 3 = 4#3 →
    decodeHost ht = .setvscale (ht.extractLsb' 0 64) ∧
    (s.phase = .idle →
      exec (.setvscale (ht.extractLsb' 0 64)) s = .next { s with vscale := ht.extractLsb' 0 64 }) ∧
    (s.phase ≠ .idle → exec (.setvscale (ht.extractLsb' 0 64)) s = .next s)

/-- START: in IDLE it binds what is attached, empties OUT, clears IN_POS and ERR and enters CHECK; in every other phase
it is ignored (40_host_ops.md R108; that the sink's answers are bound with IN is the model's choice, log 5). -/
def Obligations.StartEffect : Prop :=
  ∀ s : State,
    (s.phase = .idle →
      exec .start s = .next { s with
        input := s.attached.input, sink := s.attached.sink,
        inPos := 0, out := [], err := .none, phase := .check }) ∧
    (s.phase ≠ .idle → exec .start s = .next s)

/-- ABORT, from its transaction word (W = 1, RN = 0, DATA[1] = 1, DATA[0] ignored): accepted in every phase, it writes
PHASE and ERR alone (40_host_ops.md R110). -/
def Obligations.AbortEffect : Prop :=
  ∀ (ht : HostWord) (s : State), ht.getLsbD 67 = true → ht.extractLsb' 64 3 = 0#3 → ht.getLsbD 1 = true →
    decodeHost ht = .abort ∧ exec .abort s = .next { s with phase := .idle, err := .none }

/-- NOPW, in its five forms, has no effect: a write of CTRL with DATA[1:0] = 0, or of a read-only or reserved register
with any DATA (40_host_ops.md R112). -/
def Obligations.NopwHasNoEffect : Prop :=
  ∀ s : State,
    (∀ ht : HostWord, ht.getLsbD 67 = true →
      (ht.extractLsb' 64 3 = 0#3 ∧ ht.extractLsb' 0 2 = 0#2) ∨
        ht.extractLsb' 64 3 ∈ [1#3, 5#3, 6#3, 7#3] →
      decodeHost ht ∈ [.nopwCtrl, .nopwStatus, .nopwInPos, .nopwOutLen, .nopwReserved] ∧
        exec (decodeHost ht) s = .next s) ∧
    exec .nopwCtrl s = .next s ∧ exec .nopwStatus s = .next s ∧ exec .nopwInPos s = .next s ∧
    exec .nopwOutLen s = .next s ∧ exec .nopwReserved s = .next s

/-- RDREG returns the register's value, by register, and changes no state of the engine (40_host_ops.md R114; the
returned value stands in the model's own field, log 4). -/
def Obligations.RdregReturnsTheRegister : Prop :=
  ∀ (r : HostReg) (s : State), ∃ v : Word64,
    exec (.rdreg r) s = .next { s with hostRead := some v } ∧
    v.toNat = match r with
      | .ctrl => 0
      | .status => 16 * s.err.code.toNat + s.phase.code.toNat
      | .mode => if s.mode = .downmix then 1 else 0
      | .delay => (s.delay.toInt % 4294967296).toNat
      | .vscale => s.vscale.toNat
      | .inPos => s.inPos % 2 ^ 64
      | .outLen => s.out.length % 2 ^ 64
      | .reserved => 0

/-- A host operation always has a next state; it raises no fault, and it writes neither DL, IDX nor FLUSH_CNT
(40_host_ops.md R100, 60_exceptions.md R204). -/
def Obligations.HostOperationsNeverFault : Prop :=
  ∀ (i : Instr) (s : State), i.format = .host →
    ∃ t, exec i s = .next t ∧ (t.err = s.err ∨ t.err = .none) ∧ (t.phase = .fault → s.phase = .fault) ∧
      t.dl = s.dl ∧ t.idx = s.idx ∧ t.flushCnt = s.flushCnt ∧ t.inPos ≤ s.inPos ∧
      (i ≠ .start → t.input = s.input ∧ t.out = s.out ∧ t.inPos = s.inPos)

/-- While a run is busy, every host operation but ABORT leaves everything the engine holds as it was (40_host_ops.md
R118, R100; RDREG writes the model's own field, log 4). -/
def Obligations.OnlyAbortDisturbsABusyRun : Prop :=
  ∀ (i : Instr) (s : State), i.format = .host → i ≠ .abort → s.phase.busy = true →
    ∃ v, exec i s = .next { s with hostRead := v }

/-! ## Sequencer operations: checking and the header -/

/-- CHECK.ECHO: the first cause that holds faults, in the order ERR_DELAY, ERR_VSCALE, ERR_ALLOC; a legal configuration
goes on to HDR (41_sequencer_header.md R121, 60_exceptions.md R210). In the default format VSCALE is illegal exactly
when its exponent is 2047 or all its bits but the sign are 0 (10_state.md R26, 30_encoding.md R81); a platform of
another format has a legality predicate of its own (92_eei_decisions.md D5, log 11). -/
def Obligations.CheckEchoEffect : Prop :=
  ∀ s : State, s.phase = .check → s.mode = .echo →
    decodeSeq s.selector = .ok .checkEcho ∧
    exec .checkEcho s = .next
      (if s.delay.toInt ≤ 0 then { s with err := .errDelay, phase := .fault }
       else if s.gain.accepts s.vscale = false then { s with err := .errVscale, phase := .fault }
       else if (s.delayMax : Int) < s.delay.toInt then { s with err := .errAlloc, phase := .fault }
       else { s with phase := .hdr }) ∧
    (s.gain.verdicts = [] →
      (s.gain.accepts s.vscale = false ↔
        s.vscale.extractLsb' 52 11 = 2047#11 ∨ s.vscale.extractLsb' 0 63 = 0#63))

/-- CHECK.DMX examines nothing and goes on to HDR (41_sequencer_header.md R123). -/
def Obligations.CheckDmxEffect : Prop :=
  ∀ s : State, s.phase = .check → s.mode = .downmix →
    decodeSeq s.selector = .ok .checkDmx ∧ exec .checkDmx s = .next { s with phase := .hdr }

/-- HDR.COPY: on fewer than 44 bytes ERR_HDR_READ, with nothing read and nothing written; with 44 bytes there they are
consumed, and where the sink succeeds all of them are appended and PHASE goes on by MODE, where it fails after `k` bytes
those are appended and ERR_HDR_WRITE is raised (41_sequencer_header.md R125; how the model lists the sink's answers is
log 5). -/
def Obligations.HdrCopyEffect : Prop :=
  ∀ s : State, s.phase = .hdr →
    decodeSeq s.selector = .ok .hdrCopy ∧
    (s.input.length < s.inPos + 44 → exec .hdrCopy s = .next { s with err := .errHdrRead, phase := .fault }) ∧
    (s.inPos + 44 ≤ s.input.length → s.sinkAnswer = .ok →
      exec .hdrCopy s = .next { s with
        inPos := s.inPos + 44, out := s.out ++ (s.input.drop s.inPos).take 44,
        phase := if s.mode = .echo then .echoInit else .dmxRun,
        sink := s.sink.tail, sinkCount := s.sinkCount + 1 }) ∧
    (s.inPos + 44 ≤ s.input.length → ∀ k, k < 44 → s.sinkAnswer = .fail k →
      exec .hdrCopy s = .next { s with
        inPos := s.inPos + 44, out := s.out ++ (s.input.drop s.inPos).take k,
        err := .errHdrWrite, phase := .fault,
        sink := s.sink.tail, sinkCount := s.sinkCount + 1 })

/-- HDR.PATCH with both overwrites succeeding: bytes 4 … 7 become |OUT| − 8 and bytes 40 … 43 become |OUT| − 44, each
modulo 2^32, least significant byte first; every other byte of OUT is as it was, and PHASE becomes DONE
(41_sequencer_header.md R130, 30_encoding.md R79; how the model lists the sink's answers is its own choice, log 5). -/
def Obligations.HdrPatchRewritesTheSizes : Prop :=
  ∀ s : State, s.phase = .patch → 44 ≤ s.out.length → s.sinkAnswer = .ok → s.sinkAsked.sinkAnswer = .ok →
    decodeSeq s.selector = .ok .hdrPatch ∧
    ∃ t, exec .hdrPatch s = .next t ∧
      t = { s with out := t.out, phase := .done, sink := s.sink.tail.tail, sinkCount := s.sinkCount + 2 } ∧
      t.out.length = s.out.length ∧
      (∀ j, j < 4 → t.out[4 + j]? = some (BitVec.ofNat 8 ((s.out.length - 8) / 256 ^ j))) ∧
      (∀ j, j < 4 → t.out[40 + j]? = some (BitVec.ofNat 8 ((s.out.length - 44) / 256 ^ j))) ∧
      (∀ a, ¬ (4 ≤ a ∧ a < 8) → ¬ (40 ≤ a ∧ a < 44) → t.out[a]? = s.out[a]?)

/-- HDR.PATCH with a failing overwrite: ERR_PATCH at the first that fails; where the second fails the first stands; of
the failing one exactly the first `k` bytes are written (41_sequencer_header.md R130, 20_memory.md R58; how the model
lists the sink's answers is its own choice, log 5). -/
def Obligations.HdrPatchFailure : Prop :=
  ∀ (s : State) (k : Nat), s.phase = .patch → 44 ≤ s.out.length → k < 4 →
    (s.sinkAnswer = .fail k →
      ∃ t, exec .hdrPatch s = .next t ∧
        t = { s with out := t.out, err := .errPatch, phase := .fault, sink := s.sink.tail, sinkCount := s.sinkCount + 1 } ∧
        (∀ j, j < k → t.out[4 + j]? = some (BitVec.ofNat 8 ((s.out.length - 8) / 256 ^ j))) ∧
        (∀ a, ¬ (4 ≤ a ∧ a < 4 + k) → t.out[a]? = s.out[a]?)) ∧
    (s.sinkAnswer = .ok → s.sinkAsked.sinkAnswer = .fail k →
      ∃ t, exec .hdrPatch s = .next t ∧
        t = { s with out := t.out, err := .errPatch, phase := .fault, sink := s.sink.tail.tail, sinkCount := s.sinkCount + 2 } ∧
        (∀ j, j < 4 → t.out[4 + j]? = some (BitVec.ofNat 8 ((s.out.length - 8) / 256 ^ j))) ∧
        (∀ j, j < k → t.out[40 + j]? = some (BitVec.ofNat 8 ((s.out.length - 44) / 256 ^ j))) ∧
        (∀ a, ¬ (4 ≤ a ∧ a < 8) → ¬ (40 ≤ a ∧ a < 40 + k) → t.out[a]? = s.out[a]?))

/-! ## Sequencer operations: the Echo Mixer -/

/-- ECHO.INIT: every entry in use reads 0, every other entry as before; IDX and FLUSH_CNT are 0, PHASE is ECHO_RUN, and
nothing else changes (42_echo.md R145). -/
def Obligations.EchoInitZeroesTheLine : Prop :=
  ∀ s : State, s.phase = .echoInit →
    decodeSeq s.selector = .ok .echoInit ∧
    ∃ t, exec .echoInit s = .next t ∧
      t = { s with dl := t.dl, idx := 0, flushCnt := 0, phase := .echoRun } ∧
      ∀ i : Nat, Memory.read t.dl i = if (i : Int) < s.delay.toInt then 0 else Memory.read s.dl i

/-- ECHO.MIX with the sink succeeding: two bytes are consumed as a little-endian sample `x`; the emitted sample is the
clamped sum of `x` and the scaled sample at IDX as it was before; DL[IDX] becomes `x` itself, no other entry changes,
and IDX advances modulo DELAY (42_echo.md R153, 70_reset_and_hazards.md R240, R241; how the model lists the sink's
answers is its own choice, log 5). -/
def Obligations.EchoMixEmitsAndStores : Prop :=
  ∀ (s : State) (b0 b1 : Byte), s.phase = .echoRun → s.input[s.inPos]? = some b0 → s.input[s.inPos + 1]? = some b1 →
    Memory.wf s.dl = true → s.idx < s.delayNat → s.idx < s.delayMax → s.sinkAnswer = .ok →
    decodeSeq s.selector = .ok .echoMix ∧
    ∃ t, exec .echoMix s = .next t ∧
      t = { s with
        inPos := s.inPos + 2,
        out := s.out ++ bytes16 (enc16 (sat16 ((b1 ++ b0).toInt + scale s.gain s.vscale (Memory.read s.dl s.idx).toInt))),
        dl := t.dl, idx := (s.idx + 1) % s.delayNat,
        sink := s.sink.tail, sinkCount := s.sinkCount + 1 } ∧
      ∀ i, Memory.read t.dl i = if i = s.idx then b1 ++ b0 else Memory.read s.dl i

/-- ECHO.MIX with the sink failing after `k` bytes: those are appended, the two input bytes stay consumed, ERR_WRITE
is raised, and DL and IDX keep their old values (42_echo.md R153, 60_exceptions.md R206; how the model lists the
sink's answers is its own choice, log 5). -/
def Obligations.EchoMixSinkFailure : Prop :=
  ∀ (s : State) (b0 b1 : Byte) (k : Nat), s.phase = .echoRun → s.input[s.inPos]? = some b0 →
    s.input[s.inPos + 1]? = some b1 → s.idx < s.delayNat → s.idx < s.delayMax → k < 2 → s.sinkAnswer = .fail k →
    exec .echoMix s = .next { s with
      inPos := s.inPos + 2,
      out := s.out ++
        (bytes16 (enc16 (sat16 ((b1 ++ b0).toInt + scale s.gain s.vscale (Memory.read s.dl s.idx).toInt)))).take k,
      err := .errWrite, phase := .fault,
      sink := s.sink.tail, sinkCount := s.sinkCount + 1 }

/-- ECHO.EOS: a stray byte is consumed, so that IN_POS = |IN|, and PHASE becomes ECHO_FLUSH; nothing else changes
(42_echo.md R157). -/
def Obligations.EchoEosEffect : Prop :=
  ∀ s : State, s.phase = .echoRun → s.inPos ≤ s.input.length → s.input.length < s.inPos + 2 →
    decodeSeq s.selector = .ok .echoEos ∧
    exec .echoEos s = .next { s with inPos := s.input.length, phase := .echoFlush }

/-- ECHO.FLUSH: one tail sample, the scaled sample at IDX; where the sink succeeds IDX advances modulo DELAY and
FLUSH_CNT by one; where it fails after `k` bytes those are appended and ERR_WRITE is raised; DL is not written
(42_echo.md R160; how the model lists the sink's answers is its own choice, log 5). -/
def Obligations.EchoFlushEffect : Prop :=
  ∀ s : State, s.phase = .echoFlush → (s.flushCnt : Int) < s.delay.toInt → s.idx < s.delayNat → s.idx < s.delayMax →
    decodeSeq s.selector = .ok .echoFlush ∧
    (s.sinkAnswer = .ok →
      exec .echoFlush s = .next { s with
        out := s.out ++ bytes16 (enc16 (scale s.gain s.vscale (Memory.read s.dl s.idx).toInt)),
        idx := (s.idx + 1) % s.delayNat, flushCnt := s.flushCnt + 1,
        sink := s.sink.tail, sinkCount := s.sinkCount + 1 }) ∧
    (∀ k, k < 2 → s.sinkAnswer = .fail k →
      exec .echoFlush s = .next { s with
        out := s.out ++ (bytes16 (enc16 (scale s.gain s.vscale (Memory.read s.dl s.idx).toInt))).take k,
        err := .errWrite, phase := .fault,
        sink := s.sink.tail, sinkCount := s.sinkCount + 1 })

/-- ECHO.FLUSHEND: PHASE becomes PATCH and nothing else changes (42_echo.md R165). -/
def Obligations.EchoFlushendEffect : Prop :=
  ∀ s : State, s.phase = .echoFlush → s.delay.toInt ≤ (s.flushCnt : Int) →
    decodeSeq s.selector = .ok .echoFlushend ∧ exec .echoFlushend s = .next { s with phase := .patch }

/-- An access outside the line, which no reachable state makes, stops by name (the model's choice, log 17, from
20_memory.md R66). -/
def Obligations.OutsideTheLineStops : Prop :=
  ∀ s : State, s.delayNat ≤ s.idx ∨ s.delayMax ≤ s.idx →
    (s.enables .echoMix = true → exec .echoMix s = .fault .delayLineIndex) ∧
    (s.enables .echoFlush = true → exec .echoFlush s = .fault .delayLineIndex)

/-! ## Sequencer operations: the Downmix Filter -/

/-- DMX.PAIR: four bytes are consumed as a left and a right sample, and the halved difference is appended twice; where
the sink fails after `k` bytes those are appended and ERR_WRITE is raised (43_downmix.md R182, R181; how the model
lists the sink's answers is its own choice, log 5). -/
def Obligations.DmxPairEffect : Prop :=
  ∀ (s : State) (b0 b1 b2 b3 : Byte), s.phase = .dmxRun →
    s.input[s.inPos]? = some b0 → s.input[s.inPos + 1]? = some b1 →
    s.input[s.inPos + 2]? = some b2 → s.input[s.inPos + 3]? = some b3 →
    decodeSeq s.selector = .ok .dmxPair ∧
    (s.sinkAnswer = .ok →
      exec .dmxPair s = .next { s with
        inPos := s.inPos + 4,
        out := s.out ++ bytes16 (enc16 (((b1 ++ b0).toInt - (b3 ++ b2).toInt).tdiv 2)) ++
          bytes16 (enc16 (((b1 ++ b0).toInt - (b3 ++ b2).toInt).tdiv 2)),
        sink := s.sink.tail, sinkCount := s.sinkCount + 1 }) ∧
    (∀ k, k < 4 → s.sinkAnswer = .fail k →
      exec .dmxPair s = .next { s with
        inPos := s.inPos + 4,
        out := s.out ++ (bytes16 (enc16 (((b1 ++ b0).toInt - (b3 ++ b2).toInt).tdiv 2)) ++
          bytes16 (enc16 (((b1 ++ b0).toInt - (b3 ++ b2).toInt).tdiv 2))).take k,
        err := .errWrite, phase := .fault,
        sink := s.sink.tail, sinkCount := s.sinkCount + 1 })

/-- DMX.EOS: the leftover bytes are consumed, PHASE becomes DONE, and nothing else changes (43_downmix.md R186). -/
def Obligations.DmxEosEffect : Prop :=
  ∀ s : State, s.phase = .dmxRun → s.inPos ≤ s.input.length → s.input.length < s.inPos + 4 →
    decodeSeq s.selector = .ok .dmxEos ∧
    exec .dmxEos s = .next { s with inPos := s.input.length, phase := .done }

/-! ## Faults -/

/-- An operation that takes the machine into FAULT writes ERR with a code of its own, and no configuration register,
delay-line entry, cursor or flush count changes (60_exceptions.md R201, R204, R206). -/
def Obligations.FaultEntryKeepsTheRest : Prop :=
  ∀ (i : Instr) (s t : State), s.phase ≠ .fault → exec i s = .next t → t.phase = .fault →
    t.err ∈ faultCodes i ∧ t.mode = s.mode ∧ t.delay = s.delay ∧ t.vscale = s.vscale ∧
    t.dl = s.dl ∧ t.idx = s.idx ∧ t.flushCnt = s.flushCnt ∧ t.input = s.input ∧ t.hostRead = s.hostRead

/-- Every operation moves PHASE along an edge of the phase graph (41_sequencer_header.md R119). -/
def Obligations.PhaseFollowsTheGraph : Prop :=
  ∀ (i : Instr) (s t : State), exec i s = .next t → phaseEdge i s.phase t.phase = true

/-! ## Arithmetic -/

/-- `scale` always gives an int16, whatever the gain unit (42_echo.md R151), so the sum of the mix is within
−65536 … 65534 (R155). -/
def Obligations.ScaleIsASample : Prop :=
  ∀ (g : GainUnit) (v : Word64) (e s : Int), -32768 ≤ s → s ≤ 32767 →
    (-32768 ≤ scale g v e ∧ scale g v e ≤ 32767) ∧ (-65536 ≤ s + scale g v e ∧ s + scale g v e ≤ 65534)

/-- An emitted sample reads back as its value, from the little-endian bytes it is written as (30_encoding.md R76,
20_memory.md R60). -/
def Obligations.SampleBytesReadBack : Prop :=
  ∀ (v : Int) (before after : List Byte), -32768 ≤ v → v ≤ 32767 →
    (sampleAt (before ++ bytes16 (enc16 v) ++ after) before.length).toInt = v

/-- `real(n)` is exact for every int16 (00_scope.md R13). -/
def Obligations.RealIsExact : Prop :=
  ∀ n : Int, -32768 ≤ n → n ≤ 32767 →
    f64Finite (f64OfInt n) = true ∧ f64Mag (f64OfInt n) = n.natAbs * f64One ∧
    f64Sign (f64OfInt n) = decide (n < 0)

/-- The default `fdiv` of finite operands with a nonzero divisor is never a NaN, has the quotient's sign, and is the finite value
nearest the exact quotient, with an even last fraction bit where two are equally near; where it is an infinity the
exact quotient exceeds every finite value (42_echo.md R150). Magnitudes are in units of 2^−1074, so the exact quotient
of `a` and `b` is `f64Mag a * f64One / f64Mag b` units. -/
def Obligations.GainDivisionIsNearestEven : Prop :=
  ∀ a b : Word64, f64Finite a = true → f64Finite b = true → f64IsZero b = false →
    f64IsNaN (GainUnit.binary64.fdiv a b) = false ∧
    f64Sign (GainUnit.binary64.fdiv a b) = (f64Sign a != f64Sign b) ∧
    (f64Finite (GainUnit.binary64.fdiv a b) = true →
      ∀ m : Word64, f64Finite m = true →
        ((f64Mag (GainUnit.binary64.fdiv a b) * f64Mag b : Nat) - (f64Mag a * f64One : Nat) : Int).natAbs ≤
          ((f64Mag m * f64Mag b : Nat) - (f64Mag a * f64One : Nat) : Int).natAbs ∧
        (((f64Mag (GainUnit.binary64.fdiv a b) * f64Mag b : Nat) - (f64Mag a * f64One : Nat) : Int).natAbs =
            ((f64Mag m * f64Mag b : Nat) - (f64Mag a * f64One : Nat) : Int).natAbs →
          f64Mag m ≠ f64Mag (GainUnit.binary64.fdiv a b) → f64Frac (GainUnit.binary64.fdiv a b) % 2 = 0)) ∧
    (f64Finite (GainUnit.binary64.fdiv a b) = false →
      ∀ m : Word64, f64Finite m = true → f64Mag m * f64Mag b < f64Mag a * f64One)

/-- The default gives every exact quotient exactly: the named property under which the laws of `scale` on exact quotients
are stated (42_echo.md R150, R152 d). -/
def Obligations.DefaultDividesExactly : Prop :=
  ∀ a b : Word64, f64Finite a = true → f64Finite b = true → f64IsZero b = false → GainUnit.binary64.ExactAt a b

/-- Where the exact quotient is a binary64 value and the gain unit gives it, `scale` is its truncation toward zero,
clamped (42_echo.md R152 d): `q` has the magnitude of `e / VSCALE` exactly. -/
def Obligations.ScaleOfAnExactQuotient : Prop :=
  ∀ (g : GainUnit) (v q : Word64) (e : Int), vscaleLegal v = true → f64Finite q = true → -32768 ≤ e → e ≤ 32767 →
    g.ExactAt (f64OfInt e) v → f64Mag q * f64Mag v = e.natAbs * f64One * f64One →
    scale g v e =
      sat16 (if decide (e < 0) != f64Sign v then -((f64Mag q / f64One : Nat) : Int) else ((f64Mag q / f64One : Nat) : Int))

/-- `scale(0) = 0` for every legal VSCALE, in every gain unit that gives that exact quotient (42_echo.md R152 a). -/
def Obligations.ScaleOfZeroIsZero : Prop :=
  ∀ (g : GainUnit) (v : Word64), vscaleLegal v = true → g.ExactAt (f64OfInt 0) v → scale g v 0 = 0

/-- For VSCALE = 2^k, 0 ≤ k ≤ 1023, `scale(e) = e tdiv 2^k`, in every gain unit that gives that exact quotient
(42_echo.md R152 b). -/
def Obligations.ScaleByAPowerOfTwo : Prop :=
  ∀ (g : GainUnit) (k : Nat) (e : Int), k ≤ 1023 → -32768 ≤ e → e ≤ 32767 →
    g.ExactAt (f64OfInt e) (BitVec.ofNat 64 ((1023 + k) * 2 ^ 52)) →
    scale g (BitVec.ofNat 64 ((1023 + k) * 2 ^ 52)) e = e.tdiv (2 ^ k)

/-- For VSCALE = 2^−k, a power of two below 1, normal or subnormal, `scale(e) = sat16(e · 2^k)` under the default `fdiv`
(42_echo.md R152 c). -/
def Obligations.ScaleByAFractionOfTwo : Prop :=
  ∀ (k : Nat) (e : Int), 1 ≤ k → -32768 ≤ e → e ≤ 32767 →
    (k ≤ 1022 → scale .binary64 (BitVec.ofNat 64 ((1023 - k) * 2 ^ 52)) e = sat16 (e * 2 ^ k)) ∧
    (1023 ≤ k → k ≤ 1074 → scale .binary64 (BitVec.ofNat 64 (2 ^ (1074 - k))) e = sat16 (e * 2 ^ k))

/-- Under the default `fdiv` `scale` is monotone for positive VSCALE (42_echo.md R152 d), and for every legal VSCALE, of
either sign, it is odd but where the two signs of `e` give the two ends of the range, 32767 and −32768 (by 42_echo.md
R150 and R151). The second clause departs from R152 d, which speaks of positive VSCALE only and excepts that exactly
one of the two saturates: where both saturate the results are 32767 and −32768 as well, and no negatives of each
other. -/
def Obligations.ScaleIsMonotoneAndOdd : Prop :=
  ∀ v : Word64, vscaleLegal v = true →
    (f64Sign v = false →
      ∀ e f : Int, -32768 ≤ e → e ≤ f → f ≤ 32767 → scale .binary64 v e ≤ scale .binary64 v f) ∧
    (∀ e : Int, -32767 ≤ e → e ≤ 32767 →
      scale .binary64 v (-e) = -scale .binary64 v e ∨
        (scale .binary64 v e = 32767 ∧ scale .binary64 v (-e) = -32768) ∨
        (scale .binary64 v e = -32768 ∧ scale .binary64 v (-e) = 32767))

/-- The halved difference truncates toward zero, needs no clamp, is the sign-corrected shift, and changes sign when the
channels are exchanged (43_downmix.md R181). -/
def Obligations.HalvedDifferenceNeedsNoClamp : Prop :=
  ∀ l r : Sample,
    (-65535 ≤ l.toInt - r.toInt ∧ l.toInt - r.toInt ≤ 65535) ∧
    halfDiff l.toInt r.toInt = (l.toInt - r.toInt).tdiv 2 ∧
    -32767 ≤ halfDiff l.toInt r.toInt ∧ halfDiff l.toInt r.toInt ≤ 32767 ∧
    halfDiff l.toInt r.toInt =
      (l.toInt - r.toInt + if l.toInt - r.toInt < 0 then 1 else 0) >>> 1 ∧
    halfDiff r.toInt l.toInt = -halfDiff l.toInt r.toInt ∧
    (enc16 (halfDiff l.toInt r.toInt)).toInt = halfDiff l.toInt r.toInt

/-! ## Invariants -/

/-- Every step keeps the invariant: the canonical delay line, ERR and FAULT, the bounds of IN_POS, IDX and FLUSH_CNT,
MODE in the phases of each pipeline, and the legal configuration of a running echo run (10_state.md R22 to R32; what
hardware reset leaves of DL, IDX and FLUSH_CNT is the model's choice, log 10). -/
def Obligations.EveryStepKeepsTheInvariant : Prop :=
  ∀ s t : State, s.Inv → step s = .next t → t.Inv

/-- Every step keeps the history: what OUT, IN_POS, DL and IDX are, as functions of the run's input and configuration,
in every phase, DONE and FAULT included (10_state.md R37, 42_echo.md R170, 43_downmix.md R190, 60_exceptions.md R207;
how the model carries DL, IN and the turns is its own choice, logs 1, 10 and 18). -/
def Obligations.EveryStepKeepsTheTrace : Prop :=
  ∀ s t : State, s.RunInv → step s = .next t → t.RunInv

/-- Reset has the invariant and the history (10_state.md R39; the values of DL, IDX, FLUSH_CNT and IN at reset are the
model's choices, logs 3, 8 and 9). -/
def Obligations.ResetHasTheInvariant : Prop := State.reset.RunInv

/-- ERR ≠ 0 exactly when PHASE = FAULT: every step keeps it, by itself (10_state.md R23; the turns are the model's
own, log 1). -/
def Obligations.ErrIsSetExactlyInFault : Prop :=
  ∀ s t : State, (s.err ≠ .none ↔ s.phase = .fault) → step s = .next t → (t.err ≠ .none ↔ t.phase = .fault)

/-- In a state with the invariant no step stops the machine (60_exceptions.md R204, 70_reset_and_hazards.md R245; that
a quiescent sequencer's turn is a next state is the model's reading, log 15). -/
def Obligations.GoodStatesNeverStop : Prop :=
  ∀ s : State, s.Inv → ∃ t, step s = .next t

/-- While a run is busy, no step but hardware reset changes MODE, DELAY, VSCALE, IN, DELAY_MAX or the gain unit
(20_memory.md R69, 40_host_ops.md R116; the turns are the model's own, log 1). -/
def Obligations.ConfigurationIsFrozenWhileBusy : Prop :=
  ∀ s t : State, s.phase.busy = true → (∀ rest, s.schedule ≠ .reset :: rest) → step s = .next t →
    t.mode = s.mode ∧ t.delay = s.delay ∧ t.vscale = s.vscale ∧ t.input = s.input ∧
      t.delayMax = s.delayMax ∧ t.gain = s.gain

/-- Only HDR.PATCH overwrites OUT, and only START empties it: every other operation leaves what OUT holds as a prefix
(20_memory.md R55). -/
def Obligations.OnlyHdrPatchOverwritesOut : Prop :=
  ∀ (i : Instr) (s t : State), exec i s = .next t →
    (i ≠ .hdrPatch → i ≠ .start → s.out <+: t.out) ∧
    (i = .hdrPatch → t.out.length = s.out.length ∧
      ∀ a, ¬ (4 ≤ a ∧ a < 8) → ¬ (40 ≤ a ∧ a < 44) → t.out[a]? = s.out[a]?)

/-- IN is read strictly in order: no operation but START changes it, and IN_POS never goes back and never passes |IN|
(20_memory.md R50, R53; 10_state.md R29). -/
def Obligations.InputIsReadOnceInOrder : Prop :=
  ∀ (i : Instr) (s t : State), i ≠ .start → s.inPos ≤ s.input.length → exec i s = .next t →
    t.input = s.input ∧ s.inPos ≤ t.inPos ∧ t.inPos ≤ t.input.length

/-! ## Whole runs -/

/-- A finished echo run's output, in closed form: the header with its two size fields rewritten, then N + DELAY samples
(20_memory.md R63, 41_sequencer_header.md R132, 42_echo.md R170). -/
def Obligations.EchoResultInClosedForm : Prop :=
  ∀ s : State, s.RunInv → s.phase = .done → s.mode = .echo →
    s.out.length = 44 + 2 * (sampleCount s.input + s.delayNat) ∧
    s.out.take 4 = s.input.take 4 ∧
    (∀ j, j < 4 → s.out[4 + j]? =
      some (BitVec.ofNat 8 ((36 + 2 * (sampleCount s.input + s.delayNat)) / 256 ^ j))) ∧
    (s.out.drop 8).take 32 = (s.input.drop 8).take 32 ∧
    (∀ j, j < 4 → s.out[40 + j]? =
      some (BitVec.ofNat 8 ((2 * (sampleCount s.input + s.delayNat)) / 256 ^ j))) ∧
    (∀ i, i < sampleCount s.input →
      (sampleAt s.out (44 + 2 * i)).toInt =
        sat16 (inSample s.input i + scale s.gain s.vscale (inSample s.input ((i : Int) - s.delayNat)))) ∧
    (∀ k, k < s.delayNat →
      (sampleAt s.out (44 + 2 * (sampleCount s.input + k))).toInt =
        scale s.gain s.vscale (inSample s.input ((sampleCount s.input : Int) - s.delayNat + k)))

/-- A finished downmix run's output, in closed form: the header as it was read, then P pairs `(d, d)` (20_memory.md
R63, 41_sequencer_header.md R134, 43_downmix.md R190). -/
def Obligations.DownmixResultInClosedForm : Prop :=
  ∀ s : State, s.RunInv → s.phase = .done → s.mode = .downmix →
    s.out.length = 44 + 4 * pairCount s.input ∧
    s.out.take 44 = s.input.take 44 ∧
    ∀ p, p < pairCount s.input →
      (sampleAt s.out (44 + 4 * p)).toInt =
        ((sampleAt s.input (44 + 4 * p)).toInt - (sampleAt s.input (46 + 4 * p)).toInt).tdiv 2 ∧
      sampleAt s.out (46 + 4 * p) = sampleAt s.out (44 + 4 * p)

/-- A busy sequencer always moves: its turn gives a next state, which is in FAULT or has one operation fewer before it
(70_reset_and_hazards.md R245, R247; the empty schedule is the model's own, log 1). -/
def Obligations.BusySequencerMakesProgress : Prop :=
  ∀ s : State, s.Inv → s.phase.busy = true → s.schedule = [] →
    ∃ t, step s = .next t ∧ (t.phase = .fault ∨ t.stepsLeft + 1 = s.stepsLeft)

/-- The length of a run that meets no failing write: an echo run is DONE after exactly N + DELAY + 6 sequencer
operations, a downmix run after exactly P + 3, and is busy until then (70_reset_and_hazards.md R247; the empty
schedule and the settled sink are the model's own, logs 1 and 5). -/
def Obligations.SuccessfulRunLength : Prop :=
  ∀ s : State, s.Inv → s.phase = .check → s.schedule = [] → 44 ≤ s.input.length →
    (s.mode = .echo → s.echoConfigLegal → s.sinkOkFor (sampleCount s.input + s.delayNat + 3) →
      (∃ t, Sys2Proof.core.run (sampleCount s.input + s.delayNat + 6) s = .next t ∧ t.phase = .done) ∧
      ∀ k, k < sampleCount s.input + s.delayNat + 6 →
        ∃ u, Sys2Proof.core.run k s = .next u ∧ u.phase.busy = true) ∧
    (s.mode = .downmix → s.sinkOkFor (pairCount s.input + 1) →
      (∃ t, Sys2Proof.core.run (pairCount s.input + 3) s = .next t ∧ t.phase = .done) ∧
      ∀ k, k < pairCount s.input + 3 →
        ∃ u, Sys2Proof.core.run k s = .next u ∧ u.phase.busy = true)

/-- What an earlier run, or reset, left in DL, IDX and FLUSH_CNT shows in no run: two machines that differ there alone
step alike, and go on differing there alone (10_state.md R41; that hardware reset keeps the three is the model's
choice, log 10). -/
def Obligations.StaleDelayLineNeverShows : Prop :=
  ∀ s t s' : State, s.Inv → t.Inv → s.sameRun t → step s = .next s' →
    ∃ t', step t = .next t' ∧ s'.sameRun t'

/-! ## Reset -/

/-- The registers after reset, and after hardware reset applied in any state, hold the values the spec gives, and the
gain unit of the reset machine is the default (10_state.md R39, 00_scope.md R9, 70_reset_and_hazards.md R230; what
becomes of DL, IDX and FLUSH_CNT is not stated, log 10). -/
def Obligations.ResetValues : Prop :=
  (State.reset.phase = .idle ∧ State.reset.err = .none ∧ State.reset.mode = .echo ∧
    State.reset.delay = 0x00001F40#32 ∧ State.reset.vscale = 0x4010000000000000#64 ∧
    State.reset.inPos = 0 ∧ State.reset.out = [] ∧ State.reset.gain = .binary64) ∧
  ∀ (s : State) (rest : List Turn), s.schedule = .reset :: rest →
    ∃ t, step s = .next t ∧ t.phase = .idle ∧ t.err = .none ∧ t.mode = .echo ∧
      t.delay = 0x00001F40#32 ∧ t.vscale = 0x4010000000000000#64 ∧ t.inPos = 0 ∧ t.out = [] ∧ t.schedule = rest
end

