-- ==== Sys2Proof/Laws/Gain.lean ====
section
/-! SUPPORT. What a gain unit can be: every division and every legality predicate (92_eei_decisions.md D5, D6 and "Open
parameters, collected"), what the default and an unlisted operand give, and when a quotient is exact. -/

namespace Sys2Proof.Machine

open Sys2Proof

/-- The default divides as binary64 does. -/
@[simp] theorem GainUnit.binary64_fdiv (a b : Word64) : GainUnit.binary64.fdiv a b = f64Div a b := rfl

/-- The default accepts what binary64 calls finite and nonzero. -/
@[simp] theorem GainUnit.binary64_accepts (v : Word64) : GainUnit.binary64.accepts v = vscaleLegal v := rfl

/-- A unit with no listed quotient divides as binary64 does, whatever it accepts. -/
theorem GainUnit.fdiv_of_no_quotients (g : GainUnit) (h : g.quotients = []) (a b : Word64) : g.fdiv a b = f64Div a b := by
  simp [GainUnit.fdiv, h]

/-- A unit with no listed verdict accepts what binary64 calls legal, however it divides. -/
theorem GainUnit.accepts_of_no_verdicts (g : GainUnit) (h : g.verdicts = []) (v : Word64) :
    g.accepts v = vscaleLegal v := by
  simp [GainUnit.accepts, h]

/-- A unit whose quotient is finite and multiplies back exactly, with the right sign, is exact at these operands. -/
theorem GainUnit.exactAt_of_quotient (g : GainUnit) (a b r : Word64) (hr : g.fdiv a b = r) (hb : 0 < f64Mag b)
    (hfin : f64Finite r = true) (hmag : f64Mag r * f64Mag b = f64Mag a * f64One)
    (hsign : f64Sign r = (f64Sign a != f64Sign b)) : g.ExactAt a b := by
  intro q _ hq
  rw [hr]
  exact ⟨hfin, Nat.eq_of_mul_eq_mul_right hb (hmag.trans hq.symm), fun _ => hsign⟩

/-- Words are finitely many: some list holds them all. -/
theorem exists_list_of_words : ∃ ws : List Word64, ∀ w : Word64, w ∈ ws :=
  ⟨(List.finRange (2 ^ 64)).map BitVec.ofFin, fun w => List.mem_map.mpr ⟨w.toFin, List.mem_finRange _, rfl⟩⟩

/-- Every total function of two operands is some unit's division, and every predicate its legality, independently. -/
theorem GainUnit.exists_of_functions (f : Word64 → Word64 → Word64) (p : Word64 → Bool) :
    ∃ g : GainUnit, (∀ a b, g.fdiv a b = f a b) ∧ ∀ v, g.accepts v = p v := by
  obtain ⟨ws, hws⟩ := exists_list_of_words
  refine ⟨⟨ws.flatMap fun a => ws.map fun b => ⟨a, b, f a b⟩, ws.map fun v => ⟨v, p v⟩⟩, fun a b => ?_, fun v => ?_⟩
  · unfold GainUnit.fdiv
    split
    · rename_i q h
      have hm := List.mem_of_find?_eq_some h
      have hp := List.find?_some h
      simp only [List.mem_flatMap, List.mem_map] at hm
      obtain ⟨x, -, y, -, rfl⟩ := hm
      simp only [Bool.and_eq_true, decide_eq_true_eq] at hp
      rw [hp.1, hp.2]
    · rename_i h
      have := List.find?_eq_none.mp h ⟨a, b, f a b⟩
        (List.mem_flatMap.mpr ⟨a, hws a, List.mem_map.mpr ⟨b, hws b, rfl⟩⟩)
      simp at this
  · unfold GainUnit.accepts
    split
    · rename_i d h
      have hm := List.mem_of_find?_eq_some h
      have hp := List.find?_some h
      obtain ⟨x, -, rfl⟩ := List.mem_map.mp hm
      simp only [decide_eq_true_eq] at hp
      rw [hp]
    · rename_i h
      have := List.find?_eq_none.mp h ⟨v, p v⟩ (List.mem_map.mpr ⟨v, hws v, rfl⟩)
      simp at this

end Sys2Proof.Machine
end

