-- ==== Sys2Proof/Laws/Memory.lean ====
section
/-! SUPPORT. The delay line's operations: what a read answers after a write, and that every operation keeps the
canonical form (20_memory.md R66, 42_echo.md R145). -/

namespace Sys2Proof.Machine

open Sys2Proof

/-- Every listed index is above `a`: what `Memory.wf` says of the rest of the list, said of all of it. -/
abbrev Memory.above (a : Nat) (m : Memory) : Prop := ∀ c ∈ m, a < c.1

/-- The canonical form of a nonempty list, with the order said of the whole rest. -/
theorem Memory.wf_cons_iff (a : Nat) (x : Sample) (m : Memory) :
    Memory.wf ((a, x) :: m) = true ↔ x ≠ memoryFill ∧ Memory.above a m ∧ Memory.wf m = true := by
  induction m generalizing a x with
  | nil => simp [Memory.wf, Memory.above]
  | cons c m ih =>
    obtain ⟨b, y⟩ := c
    have hb := ih b y
    constructor
    · intro h
      simp only [Memory.wf, List.head?_cons, Option.all_some, Bool.and_eq_true, decide_eq_true_eq] at h
      obtain ⟨⟨hx, hab⟩, hrest⟩ := h
      have hrest' : Memory.wf ((b, y) :: m) = true := by
        simp only [Memory.wf, Bool.and_eq_true, decide_eq_true_eq]; exact hrest
      refine ⟨hx, ?_, hrest'⟩
      intro d hd
      rcases List.mem_cons.mp hd with rfl | hd
      · exact hab
      · exact Nat.lt_trans hab ((hb.mp hrest').2.1 d hd)
    · rintro ⟨hx, habove, hrest⟩
      rw [Memory.wf]
      simp only [List.head?_cons, Option.all_some, Bool.and_eq_true, decide_eq_true_eq]
      exact ⟨⟨hx, habove (b, y) (by simp)⟩, hrest⟩

/-- An index no entry lists reads as the fill. -/
theorem Memory.read_of_absent (m : Memory) (i : Nat) (h : ∀ c ∈ m, c.1 ≠ i) :
    Memory.read m i = memoryFill := by
  induction m with
  | nil => rfl
  | cons c m ih =>
    obtain ⟨a, x⟩ := c
    have ha : a ≠ i := h (a, x) (by simp)
    simp only [Memory.read, if_neg ha]
    exact ih fun d hd => h d (List.mem_cons_of_mem _ hd)

/-- Reading through `Memory.cons` over a list whose indexes are all above. -/
theorem Memory.read_cons_above (m : Memory) (i j : Nat) (x : Sample) (h : Memory.above i m) :
    Memory.read (Memory.cons i x m) j = if j = i then x else Memory.read m j := by
  unfold Memory.cons
  split
  · rename_i hx
    split
    · rename_i hj
      subst hj
      rw [hx]
      exact Memory.read_of_absent m j fun c hc => Nat.ne_of_gt (h c hc)
    · rfl
  · simp only [Memory.read]
    by_cases hj : j = i
    · simp [hj]
    · simp [hj, Ne.symm hj]

/-- Read after write: the index written reads as what was written, every other index as before. -/
theorem Memory.read_write (m : Memory) (hm : Memory.wf m = true) (i j : Nat) (x : Sample) :
    Memory.read (Memory.write m i x) j = if j = i then x else Memory.read m j := by
  induction m with
  | nil => exact Memory.read_cons_above [] i j x (by simp [Memory.above])
  | cons c m ih =>
    obtain ⟨a, y⟩ := c
    obtain ⟨hy, habove, hrest⟩ := (Memory.wf_cons_iff a y m).mp hm
    simp only [Memory.write]
    split
    · rename_i hia
      refine Memory.read_cons_above _ i j x ?_
      intro d hd
      rcases List.mem_cons.mp hd with rfl | hd
      · exact hia
      · exact Nat.lt_trans hia (habove d hd)
    · split
      · rename_i _ hia
        subst hia
        rw [Memory.read_cons_above m i j x habove]
        by_cases hj : j = i
        · simp [hj]
        · simp [hj, Memory.read, Ne.symm hj]
      · rename_i h1 h2
        simp only [Memory.read, ih hrest]
        by_cases hj : j = i
        · subst hj
          simp [Ne.symm h2]
        · simp [hj]

/-- What a write lists is what was listed, and at most the index written. -/
theorem Memory.mem_write (m : Memory) (i : Nat) (x : Sample) (c : Nat × Sample)
    (h : c ∈ Memory.write m i x) : c ∈ m ∨ c.1 = i := by
  have hcons : ∀ m' : Memory, c ∈ Memory.cons i x m' → c ∈ m' ∨ c.1 = i := by
    intro m' hc
    unfold Memory.cons at hc
    split at hc
    · exact Or.inl hc
    · rcases List.mem_cons.mp hc with rfl | hc
      · exact Or.inr rfl
      · exact Or.inl hc
  induction m with
  | nil => exact hcons [] h
  | cons d m ih =>
    obtain ⟨a, y⟩ := d
    simp only [Memory.write] at h
    split at h
    · exact hcons _ h
    · split at h
      · rcases hcons m h with h | h
        · exact Or.inl (List.mem_cons_of_mem _ h)
        · exact Or.inr h
      · rcases List.mem_cons.mp h with rfl | h
        · exact Or.inl (by simp)
        · rcases ih h with h | h
          · exact Or.inl (List.mem_cons_of_mem _ h)
          · exact Or.inr h

/-- `Memory.cons` over a canonical list whose indexes are all above is canonical. -/
theorem Memory.wf_cons_above (m : Memory) (hm : Memory.wf m = true) (i : Nat) (x : Sample)
    (h : Memory.above i m) : Memory.wf (Memory.cons i x m) = true := by
  unfold Memory.cons
  split
  · exact hm
  · rename_i hx
    exact (Memory.wf_cons_iff i x m).mpr ⟨hx, h, hm⟩

/-- A write keeps the canonical form. -/
theorem Memory.wf_write (m : Memory) (hm : Memory.wf m = true) (i : Nat) (x : Sample) :
    Memory.wf (Memory.write m i x) = true := by
  induction m with
  | nil => exact Memory.wf_cons_above [] hm i x (by simp [Memory.above])
  | cons c m ih =>
    obtain ⟨a, y⟩ := c
    obtain ⟨hy, habove, hrest⟩ := (Memory.wf_cons_iff a y m).mp hm
    simp only [Memory.write]
    split
    · rename_i hia
      refine Memory.wf_cons_above _ hm i x ?_
      intro d hd
      rcases List.mem_cons.mp hd with rfl | hd
      · exact hia
      · exact Nat.lt_trans hia (habove d hd)
    · split
      · rename_i _ hia
        subst hia
        exact Memory.wf_cons_above m hrest i x habove
      · rename_i h1 h2
        refine (Memory.wf_cons_iff a y _).mpr ⟨hy, ?_, ih hrest⟩
        intro d hd
        rcases Memory.mem_write m i x d hd with hd | hd
        · exact habove d hd
        · rw [hd]; omega

/-- Zeroing the entries below `n`: they read 0, the others as before. -/
theorem Memory.read_zeroBelow (m : Memory) (n i : Nat) :
    Memory.read (Memory.zeroBelow n m) i = if i < n then 0 else Memory.read m i := by
  unfold Memory.zeroBelow
  induction m with
  | nil => simp [Memory.read, memoryFill]
  | cons c m ih =>
    obtain ⟨a, x⟩ := c
    by_cases ha : n ≤ a
    · simp only [List.filter_cons, ha, decide_true, if_true, Memory.read, ih]
      by_cases hai : a = i
      · subst hai
        simp [Nat.not_lt.mpr ha]
      · simp [hai]
    · simp only [List.filter_cons, ha, decide_false, Bool.false_eq_true, if_false, Memory.read, ih]
      by_cases hai : a = i
      · subst hai
        simp [Nat.lt_of_not_le ha]
      · simp [hai]

/-- Zeroing keeps the canonical form. -/
theorem Memory.wf_zeroBelow (m : Memory) (hm : Memory.wf m = true) (n : Nat) :
    Memory.wf (Memory.zeroBelow n m) = true := by
  induction m with
  | nil => exact hm
  | cons c m ih =>
    obtain ⟨a, x⟩ := c
    obtain ⟨hx, habove, hrest⟩ := (Memory.wf_cons_iff a x m).mp hm
    have ih' := ih hrest
    unfold Memory.zeroBelow at ih' ⊢
    by_cases ha : n ≤ a
    · simp only [List.filter_cons, ha, decide_true, if_true]
      refine (Memory.wf_cons_iff a x _).mpr ⟨hx, ?_, ih'⟩
      intro d hd
      exact habove d (List.mem_filter.mp hd).1
    · simpa [List.filter_cons, ha] using ih'

/-- Zeroing in one piece reads as the loop of writes of 42_echo.md R145 does. -/
theorem Memory.read_zeroBelow_eq_loop (m : Memory) (hm : Memory.wf m = true) (n i : Nat) :
    Memory.read (Memory.zeroBelow n m) i =
      Memory.read ((List.range n).foldl (fun l k => Memory.write l k 0) m) i := by
  suffices h : ∀ k, Memory.wf ((List.range k).foldl (fun l j => Memory.write l j 0) m) = true ∧
      Memory.read ((List.range k).foldl (fun l j => Memory.write l j 0) m) i
        = if i < k then 0 else Memory.read m i by
    rw [(h n).2, Memory.read_zeroBelow]
  intro k
  induction k with
  | zero => simp [hm]
  | succ k ih =>
    obtain ⟨hw, hr⟩ := ih
    rw [List.range_succ, List.foldl_append]
    refine ⟨Memory.wf_write _ hw k 0, ?_⟩
    simp only [List.foldl_cons, List.foldl_nil]
    rw [Memory.read_write _ hw, hr]
    by_cases h : i = k
    · simp [h]
    · simp only [h, if_false]
      by_cases h2 : i < k
      · simp [h2, Nat.lt_succ_of_lt h2]
      · simp [h2, show ¬ i < k + 1 by omega]

/-- The reset memory is canonical. -/
theorem Memory.wf_nil : Memory.wf [] = true := rfl

end Sys2Proof.Machine
end

