-- ==== Sys2Proof/Laws/State.lean ====
section
/-! SUPPORT. One lemma per field for each named update of State, so that no later proof unfolds a record update. -/

namespace Sys2Proof.Machine

open Sys2Proof

/-! ## takeFault: Taking a fault writes ERR and PHASE and nothing else (60_exceptions.md R206). -/

@[simp] theorem State.takeFault_phase (s : State) (c : Err) : (s.takeFault c).phase = .fault := rfl
@[simp] theorem State.takeFault_err (s : State) (c : Err) : (s.takeFault c).err = c := rfl
@[simp] theorem State.takeFault_mode (s : State) (c : Err) : (s.takeFault c).mode = s.mode := rfl
@[simp] theorem State.takeFault_delay (s : State) (c : Err) : (s.takeFault c).delay = s.delay := rfl
@[simp] theorem State.takeFault_vscale (s : State) (c : Err) : (s.takeFault c).vscale = s.vscale := rfl
@[simp] theorem State.takeFault_inPos (s : State) (c : Err) : (s.takeFault c).inPos = s.inPos := rfl
@[simp] theorem State.takeFault_dl (s : State) (c : Err) : (s.takeFault c).dl = s.dl := rfl
@[simp] theorem State.takeFault_idx (s : State) (c : Err) : (s.takeFault c).idx = s.idx := rfl
@[simp] theorem State.takeFault_flushCnt (s : State) (c : Err) : (s.takeFault c).flushCnt = s.flushCnt := rfl
@[simp] theorem State.takeFault_out (s : State) (c : Err) : (s.takeFault c).out = s.out := rfl
@[simp] theorem State.takeFault_input (s : State) (c : Err) : (s.takeFault c).input = s.input := rfl
@[simp] theorem State.takeFault_delayMax (s : State) (c : Err) : (s.takeFault c).delayMax = s.delayMax := rfl
@[simp] theorem State.takeFault_gain (s : State) (c : Err) : (s.takeFault c).gain = s.gain := rfl
@[simp] theorem State.takeFault_sink (s : State) (c : Err) : (s.takeFault c).sink = s.sink := rfl
@[simp] theorem State.takeFault_attached (s : State) (c : Err) : (s.takeFault c).attached = s.attached := rfl
@[simp] theorem State.takeFault_schedule (s : State) (c : Err) : (s.takeFault c).schedule = s.schedule := rfl
@[simp] theorem State.takeFault_sinkCount (s : State) (c : Err) : (s.takeFault c).sinkCount = s.sinkCount := rfl
@[simp] theorem State.takeFault_hostRead (s : State) (c : Err) : (s.takeFault c).hostRead = s.hostRead := rfl

/-! ## toIdle: The way back to IDLE writes PHASE and ERR and nothing else (40_host_ops.md R110). -/

@[simp] theorem State.toIdle_phase (s : State) : s.toIdle.phase = .idle := rfl
@[simp] theorem State.toIdle_err (s : State) : s.toIdle.err = .none := rfl
@[simp] theorem State.toIdle_mode (s : State) : s.toIdle.mode = s.mode := rfl
@[simp] theorem State.toIdle_delay (s : State) : s.toIdle.delay = s.delay := rfl
@[simp] theorem State.toIdle_vscale (s : State) : s.toIdle.vscale = s.vscale := rfl
@[simp] theorem State.toIdle_inPos (s : State) : s.toIdle.inPos = s.inPos := rfl
@[simp] theorem State.toIdle_dl (s : State) : s.toIdle.dl = s.dl := rfl
@[simp] theorem State.toIdle_idx (s : State) : s.toIdle.idx = s.idx := rfl
@[simp] theorem State.toIdle_flushCnt (s : State) : s.toIdle.flushCnt = s.flushCnt := rfl
@[simp] theorem State.toIdle_out (s : State) : s.toIdle.out = s.out := rfl
@[simp] theorem State.toIdle_input (s : State) : s.toIdle.input = s.input := rfl
@[simp] theorem State.toIdle_delayMax (s : State) : s.toIdle.delayMax = s.delayMax := rfl
@[simp] theorem State.toIdle_gain (s : State) : s.toIdle.gain = s.gain := rfl
@[simp] theorem State.toIdle_sink (s : State) : s.toIdle.sink = s.sink := rfl
@[simp] theorem State.toIdle_attached (s : State) : s.toIdle.attached = s.attached := rfl
@[simp] theorem State.toIdle_schedule (s : State) : s.toIdle.schedule = s.schedule := rfl
@[simp] theorem State.toIdle_sinkCount (s : State) : s.toIdle.sinkCount = s.sinkCount := rfl
@[simp] theorem State.toIdle_hostRead (s : State) : s.toIdle.hostRead = s.hostRead := rfl

/-! ## inConsume: Reading IN moves IN_POS and nothing else (20_memory.md R53). -/

@[simp] theorem State.inConsume_phase (s : State) (n : Nat) : (s.inConsume n).phase = s.phase := rfl
@[simp] theorem State.inConsume_err (s : State) (n : Nat) : (s.inConsume n).err = s.err := rfl
@[simp] theorem State.inConsume_mode (s : State) (n : Nat) : (s.inConsume n).mode = s.mode := rfl
@[simp] theorem State.inConsume_delay (s : State) (n : Nat) : (s.inConsume n).delay = s.delay := rfl
@[simp] theorem State.inConsume_vscale (s : State) (n : Nat) : (s.inConsume n).vscale = s.vscale := rfl
@[simp] theorem State.inConsume_inPos (s : State) (n : Nat) : (s.inConsume n).inPos = s.inPos + n := rfl
@[simp] theorem State.inConsume_dl (s : State) (n : Nat) : (s.inConsume n).dl = s.dl := rfl
@[simp] theorem State.inConsume_idx (s : State) (n : Nat) : (s.inConsume n).idx = s.idx := rfl
@[simp] theorem State.inConsume_flushCnt (s : State) (n : Nat) : (s.inConsume n).flushCnt = s.flushCnt := rfl
@[simp] theorem State.inConsume_out (s : State) (n : Nat) : (s.inConsume n).out = s.out := rfl
@[simp] theorem State.inConsume_input (s : State) (n : Nat) : (s.inConsume n).input = s.input := rfl
@[simp] theorem State.inConsume_delayMax (s : State) (n : Nat) : (s.inConsume n).delayMax = s.delayMax := rfl
@[simp] theorem State.inConsume_gain (s : State) (n : Nat) : (s.inConsume n).gain = s.gain := rfl
@[simp] theorem State.inConsume_sink (s : State) (n : Nat) : (s.inConsume n).sink = s.sink := rfl
@[simp] theorem State.inConsume_attached (s : State) (n : Nat) : (s.inConsume n).attached = s.attached := rfl
@[simp] theorem State.inConsume_schedule (s : State) (n : Nat) : (s.inConsume n).schedule = s.schedule := rfl
@[simp] theorem State.inConsume_sinkCount (s : State) (n : Nat) : (s.inConsume n).sinkCount = s.sinkCount := rfl
@[simp] theorem State.inConsume_hostRead (s : State) (n : Nat) : (s.inConsume n).hostRead = s.hostRead := rfl

/-! ## sinkAsked: Asking the sink uses one answer up (20_memory.md R59). -/

@[simp] theorem State.sinkAsked_phase (s : State) : s.sinkAsked.phase = s.phase := rfl
@[simp] theorem State.sinkAsked_err (s : State) : s.sinkAsked.err = s.err := rfl
@[simp] theorem State.sinkAsked_mode (s : State) : s.sinkAsked.mode = s.mode := rfl
@[simp] theorem State.sinkAsked_delay (s : State) : s.sinkAsked.delay = s.delay := rfl
@[simp] theorem State.sinkAsked_vscale (s : State) : s.sinkAsked.vscale = s.vscale := rfl
@[simp] theorem State.sinkAsked_inPos (s : State) : s.sinkAsked.inPos = s.inPos := rfl
@[simp] theorem State.sinkAsked_dl (s : State) : s.sinkAsked.dl = s.dl := rfl
@[simp] theorem State.sinkAsked_idx (s : State) : s.sinkAsked.idx = s.idx := rfl
@[simp] theorem State.sinkAsked_flushCnt (s : State) : s.sinkAsked.flushCnt = s.flushCnt := rfl
@[simp] theorem State.sinkAsked_out (s : State) : s.sinkAsked.out = s.out := rfl
@[simp] theorem State.sinkAsked_input (s : State) : s.sinkAsked.input = s.input := rfl
@[simp] theorem State.sinkAsked_delayMax (s : State) : s.sinkAsked.delayMax = s.delayMax := rfl
@[simp] theorem State.sinkAsked_gain (s : State) : s.sinkAsked.gain = s.gain := rfl
@[simp] theorem State.sinkAsked_sink (s : State) : s.sinkAsked.sink = s.sink.tail := rfl
@[simp] theorem State.sinkAsked_attached (s : State) : s.sinkAsked.attached = s.attached := rfl
@[simp] theorem State.sinkAsked_schedule (s : State) : s.sinkAsked.schedule = s.schedule := rfl
@[simp] theorem State.sinkAsked_sinkCount (s : State) : s.sinkAsked.sinkCount = s.sinkCount + 1 := rfl
@[simp] theorem State.sinkAsked_hostRead (s : State) : s.sinkAsked.hostRead = s.hostRead := rfl

/-! ## beginRun: What START writes (40_host_ops.md R108). -/

@[simp] theorem State.beginRun_phase (s : State) : s.beginRun.phase = .check := rfl
@[simp] theorem State.beginRun_err (s : State) : s.beginRun.err = .none := rfl
@[simp] theorem State.beginRun_mode (s : State) : s.beginRun.mode = s.mode := rfl
@[simp] theorem State.beginRun_delay (s : State) : s.beginRun.delay = s.delay := rfl
@[simp] theorem State.beginRun_vscale (s : State) : s.beginRun.vscale = s.vscale := rfl
@[simp] theorem State.beginRun_inPos (s : State) : s.beginRun.inPos = 0 := rfl
@[simp] theorem State.beginRun_dl (s : State) : s.beginRun.dl = s.dl := rfl
@[simp] theorem State.beginRun_idx (s : State) : s.beginRun.idx = s.idx := rfl
@[simp] theorem State.beginRun_flushCnt (s : State) : s.beginRun.flushCnt = s.flushCnt := rfl
@[simp] theorem State.beginRun_out (s : State) : s.beginRun.out = [] := rfl
@[simp] theorem State.beginRun_input (s : State) : s.beginRun.input = s.attached.input := rfl
@[simp] theorem State.beginRun_delayMax (s : State) : s.beginRun.delayMax = s.delayMax := rfl
@[simp] theorem State.beginRun_gain (s : State) : s.beginRun.gain = s.gain := rfl
@[simp] theorem State.beginRun_sink (s : State) : s.beginRun.sink = s.attached.sink := rfl
@[simp] theorem State.beginRun_attached (s : State) : s.beginRun.attached = s.attached := rfl
@[simp] theorem State.beginRun_schedule (s : State) : s.beginRun.schedule = s.schedule := rfl
@[simp] theorem State.beginRun_sinkCount (s : State) : s.beginRun.sinkCount = s.sinkCount := rfl
@[simp] theorem State.beginRun_hostRead (s : State) : s.beginRun.hostRead = s.hostRead := rfl

/-! ## hardReset: What hardware reset writes (70_reset_and_hazards.md R230). -/

@[simp] theorem State.hardReset_phase (s : State) : s.hardReset.phase = .idle := rfl
@[simp] theorem State.hardReset_err (s : State) : s.hardReset.err = .none := rfl
@[simp] theorem State.hardReset_mode (s : State) : s.hardReset.mode = .echo := rfl
@[simp] theorem State.hardReset_delay (s : State) : s.hardReset.delay = Config.delayDefault := rfl
@[simp] theorem State.hardReset_vscale (s : State) : s.hardReset.vscale = Config.vscaleDefault := rfl
@[simp] theorem State.hardReset_inPos (s : State) : s.hardReset.inPos = 0 := rfl
@[simp] theorem State.hardReset_dl (s : State) : s.hardReset.dl = s.dl := rfl
@[simp] theorem State.hardReset_idx (s : State) : s.hardReset.idx = s.idx := rfl
@[simp] theorem State.hardReset_flushCnt (s : State) : s.hardReset.flushCnt = s.flushCnt := rfl
@[simp] theorem State.hardReset_out (s : State) : s.hardReset.out = [] := rfl
@[simp] theorem State.hardReset_input (s : State) : s.hardReset.input = [] := rfl
@[simp] theorem State.hardReset_delayMax (s : State) : s.hardReset.delayMax = s.delayMax := rfl
@[simp] theorem State.hardReset_gain (s : State) : s.hardReset.gain = s.gain := rfl
@[simp] theorem State.hardReset_sink (s : State) : s.hardReset.sink = [] := rfl
@[simp] theorem State.hardReset_attached (s : State) : s.hardReset.attached = s.attached := rfl
@[simp] theorem State.hardReset_schedule (s : State) : s.hardReset.schedule = s.schedule := rfl
@[simp] theorem State.hardReset_sinkCount (s : State) : s.hardReset.sinkCount = s.sinkCount := rfl
@[simp] theorem State.hardReset_hostRead (s : State) : s.hardReset.hostRead = s.hostRead := rfl

end Sys2Proof.Machine
end

