-- ==== Sys2Proof/Laws/Ops.lean ====
section
/-! SUPPORT. For each shared operation, what it can do, said once: the two outcomes of a write to OUT, the guard of a
sequencer operation, the guard of a configuration write, and the three outcomes of a step (20_memory.md R57, R58;
41_sequencer_header.md R120; 40_host_ops.md R100). -/

namespace Sys2Proof.Machine

open Sys2Proof

/-- A write whose sink answers `ok` appends all its bytes and goes on. -/
theorem State.outAppend_ok (s : State) (bs : List Byte) (c : Err) (f : State → State)
    (h : s.sinkAnswer = .ok) :
    s.outAppend bs c f = f { s.sinkAsked with out := s.out ++ bs } := by
  simp [State.outAppend, h]

/-- A write whose sink fails appends a proper prefix and takes the fault. -/
theorem State.outAppend_fail (s : State) (bs : List Byte) (c : Err) (f : State → State) (k : Nat)
    (h : s.sinkAnswer = .fail k) :
    s.outAppend bs c f =
      { s.sinkAsked with out := s.out ++ writtenOnFail k bs, err := c, phase := .fault } := by
  simp [State.outAppend, h, State.takeFault]

/-- What an append can do. -/
theorem State.outAppend_cases (s : State) (bs : List Byte) (c : Err) (f : State → State) :
    (s.sinkAnswer = .ok ∧ s.outAppend bs c f = f { s.sinkAsked with out := s.out ++ bs }) ∨
      ∃ k, s.sinkAnswer = .fail k ∧ s.outAppend bs c f =
        { s.sinkAsked with out := s.out ++ writtenOnFail k bs, err := c, phase := .fault } := by
  rcases h : s.sinkAnswer with _ | k
  · exact Or.inl ⟨rfl, s.outAppend_ok bs c f h⟩
  · exact Or.inr ⟨k, rfl, s.outAppend_fail bs c f k h⟩

/-- An overwrite whose sink answers `ok` lays all its bytes over OUT and goes on. -/
theorem State.outPatch_ok (s : State) (off : Nat) (bs : List Byte) (c : Err) (f : State → State)
    (h : s.sinkAnswer = .ok) :
    s.outPatch off bs c f = f { s.sinkAsked with out := overlay s.out off bs } := by
  simp [State.outPatch, h]

/-- An overwrite whose sink fails lays a proper prefix over OUT and takes the fault. -/
theorem State.outPatch_fail (s : State) (off : Nat) (bs : List Byte) (c : Err) (f : State → State) (k : Nat)
    (h : s.sinkAnswer = .fail k) :
    s.outPatch off bs c f =
      { s.sinkAsked with out := overlay s.out off (writtenOnFail k bs), err := c, phase := .fault } := by
  simp [State.outPatch, h, State.takeFault]

/-- What an overwrite can do. -/
theorem State.outPatch_cases (s : State) (off : Nat) (bs : List Byte) (c : Err) (f : State → State) :
    (s.sinkAnswer = .ok ∧ s.outPatch off bs c f = f { s.sinkAsked with out := overlay s.out off bs }) ∨
      ∃ k, s.sinkAnswer = .fail k ∧ s.outPatch off bs c f =
        { s.sinkAsked with out := overlay s.out off (writtenOnFail k bs), err := c, phase := .fault } := by
  rcases h : s.sinkAnswer with _ | k
  · exact Or.inl ⟨rfl, s.outPatch_ok off bs c f h⟩
  · exact Or.inr ⟨k, rfl, s.outPatch_fail off bs c f k h⟩

/-- A failing write leaves fewer bytes than it was asked to write (20_memory.md R57). -/
theorem writtenOnFail_length_lt (k : Nat) (bs : List Byte) (h : bs ≠ []) :
    (writtenOnFail k bs).length < bs.length := by
  have : 0 < bs.length := List.length_pos_iff.mpr h
  simp only [writtenOnFail, List.length_take]
  omega

/-- What a failing write leaves for an answer the spec admits: the first `k` bytes. -/
theorem writtenOnFail_eq_take (k : Nat) (bs : List Byte) (h : k < bs.length) :
    writtenOnFail k bs = bs.take k := by
  simp only [writtenOnFail]
  congr 1
  omega

/-- An overwrite inside OUT does not change its length (20_memory.md R58). -/
theorem overlay_length (out : List Byte) (off : Nat) (bs : List Byte) (h : off + bs.length ≤ out.length) :
    (overlay out off bs).length = out.length := by
  simp only [overlay, List.length_append, List.length_take, List.length_drop]
  omega

/-- What an operation under `whenEnabled` can do. -/
theorem whenEnabled_cases (i : Instr) (s : State) (o : Host.Outcome State Fault Refusal) :
    (s.enables i = true ∧ whenEnabled i s o = o) ∨
      (s.enables i = false ∧ whenEnabled i s o = .refused .notEnabled) := by
  unfold whenEnabled
  cases h : s.enables i <;> simp

/-- If an operation under `whenEnabled` answers a next state, it is enabled and its effect answers that state. -/
theorem whenEnabled_next (i : Instr) (s t : State) (o : Host.Outcome State Fault Refusal)
    (h : whenEnabled i s o = .next t) : s.enables i = true ∧ o = .next t := by
  unfold whenEnabled at h
  split at h
  · exact ⟨by assumption, h⟩
  · cases h

/-- What a write outside IDLE does: nothing (40_host_ops.md R100). -/
theorem State.inIdle_busy (s : State) (f : State → State) (h : s.phase ≠ .idle) : s.inIdle f = s := by
  simp [State.inIdle, h]

/-- What a write in IDLE does. -/
theorem State.inIdle_idle (s : State) (f : State → State) (h : s.phase = .idle) : s.inIdle f = f s := by
  simp [State.inIdle, h]

/-- If a step answers a next state, an operation has run on the fetched state, or the turn ran none. -/
theorem step_next_cases (s t : State) (h : step s = .next t) :
    (∃ i u, fetch s = .run i u ∧ exec i u = .next t) ∨ fetch s = .settle t := by
  unfold step at h
  split at h
  · rename_i i u hf
    exact Or.inl ⟨i, u, hf, h⟩
  · rename_i u hf
    cases h
    exact Or.inr hf
  · cases h

end Sys2Proof.Machine
end

