-- ==== Sys2Proof/Laws/PerInstr.lean ====
section
/-! SUPPORT. Statements made for every operation, one lemma per constructor: the encoder's word is selected by the
operation's own row of the opcode table (30_encoding.md R88, R91). -/

namespace Sys2Proof.Laws

open Sys2Proof

/-- The row of `i` selects the word the encoder writes for `i`. -/
def EncodeRow.Statement (i : Instr) : Prop := i.row.selects (encode i) = true

/-- The register-number field of a transaction word. -/
theorem fieldRN_hostWord (w : Bool) (r : HostReg) (data : Word64) : fieldRN (hostWord w r data) = hostRegNumber r := by
  apply BitVec.eq_of_getLsbD_eq
  intro k hk
  rw [fieldRN, BitVec.getLsbD_extractLsb']
  show (decide (k < 3) && (BitVec.ofBool w ++ hostRegNumber r ++ data).getLsbD (64 + k)) = _
  rw [BitVec.getLsbD_append, BitVec.getLsbD_append]
  simp [hk]

/-- The write bit of a transaction word. -/
theorem fieldW_hostWord (w : Bool) (r : HostReg) (data : Word64) : fieldW (hostWord w r data) = w := by
  simp only [fieldW, hostWord, BitVec.getLsbD_append]
  simp

/-- The selector of a register write under the mask that ignores DATA[1:0]. -/
theorem hostSelector_hostWord_masked (r : HostReg) (data : Word64) :
    hostSelector (hostWord true r data) &&& 0x3C#6 = 1#1 ++ hostRegNumber r ++ 0#2 := by
  simp only [hostSelector, fieldW_hostWord, fieldRN_hostWord]
  generalize (fieldData (hostWord true r data)).extractLsb' 0 2 = low
  revert low
  cases r <;> decide

theorem EncodeRow.rdreg (r : HostReg) : EncodeRow.Statement (.rdreg r) := by
  unfold EncodeRow.Statement
  cases r <;> decide

theorem EncodeRow.nopwCtrl : EncodeRow.Statement (.nopwCtrl) := by
  unfold EncodeRow.Statement
  decide

theorem EncodeRow.start : EncodeRow.Statement (.start) := by
  unfold EncodeRow.Statement
  decide

theorem EncodeRow.abort : EncodeRow.Statement (.abort) := by
  unfold EncodeRow.Statement
  decide

theorem EncodeRow.nopwStatus : EncodeRow.Statement (.nopwStatus) := by
  unfold EncodeRow.Statement
  decide

theorem EncodeRow.setmode (m : Mode) : EncodeRow.Statement (.setmode m) := by
  unfold EncodeRow.Statement
  cases m <;> decide

theorem EncodeRow.setdelay (n : Int) : EncodeRow.Statement (.setdelay n) := by
  simp only [EncodeRow.Statement, OpcodeRow.selects, encode, Instr.row, Code.format, Code.selector, decide_true, Bool.true_and]
  exact decide_eq_true ((hostSelector_hostWord_masked _ _).trans (by decide))

theorem EncodeRow.setvscale (v : Word64) : EncodeRow.Statement (.setvscale v) := by
  simp only [EncodeRow.Statement, OpcodeRow.selects, encode, Instr.row, Code.format, Code.selector, decide_true, Bool.true_and]
  exact decide_eq_true ((hostSelector_hostWord_masked _ _).trans (by decide))

theorem EncodeRow.nopwInPos : EncodeRow.Statement (.nopwInPos) := by
  unfold EncodeRow.Statement
  decide

theorem EncodeRow.nopwOutLen : EncodeRow.Statement (.nopwOutLen) := by
  unfold EncodeRow.Statement
  decide

theorem EncodeRow.nopwReserved : EncodeRow.Statement (.nopwReserved) := by
  unfold EncodeRow.Statement
  decide

theorem EncodeRow.checkEcho : EncodeRow.Statement (.checkEcho) := by
  unfold EncodeRow.Statement
  decide

theorem EncodeRow.checkDmx : EncodeRow.Statement (.checkDmx) := by
  unfold EncodeRow.Statement
  decide

theorem EncodeRow.hdrCopy : EncodeRow.Statement (.hdrCopy) := by
  unfold EncodeRow.Statement
  decide

theorem EncodeRow.echoInit : EncodeRow.Statement (.echoInit) := by
  unfold EncodeRow.Statement
  decide

theorem EncodeRow.echoMix : EncodeRow.Statement (.echoMix) := by
  unfold EncodeRow.Statement
  decide

theorem EncodeRow.echoEos : EncodeRow.Statement (.echoEos) := by
  unfold EncodeRow.Statement
  decide

theorem EncodeRow.echoFlush : EncodeRow.Statement (.echoFlush) := by
  unfold EncodeRow.Statement
  decide

theorem EncodeRow.echoFlushend : EncodeRow.Statement (.echoFlushend) := by
  unfold EncodeRow.Statement
  decide

theorem EncodeRow.hdrPatch : EncodeRow.Statement (.hdrPatch) := by
  unfold EncodeRow.Statement
  decide

theorem EncodeRow.dmxPair : EncodeRow.Statement (.dmxPair) := by
  unfold EncodeRow.Statement
  decide

theorem EncodeRow.dmxEos : EncodeRow.Statement (.dmxEos) := by
  unfold EncodeRow.Statement
  decide

end Sys2Proof.Laws
end

