-- ==== Sys2Proof/Tests/Slice0.lean ====
section
/-! SUPPORT. The model's own tests: the well-formedness check, every operation's word, at most two single steps for each
operation, and for each obligation with hypotheses a state and operands that meet them. Expected values are those of
95_test_vectors.md (named V<n> and P<n> below), 30_encoding.md R88 and R91, or worked by hand from a rule. -/

namespace Sys2Proof.Tests

open Sys2Proof Sys2Proof.Machine

/-! ## Well-formedness: the one check -/

theorem test_wellFormed_refuses_setdelay_above : (Instr.setdelay 2147483648).wellFormed = false := by decide
theorem test_wellFormed_refuses_setdelay_below : (Instr.setdelay (-2147483649)).wellFormed = false := by decide
theorem test_wellFormed_accepts_setdelay_bounds :
    (Instr.setdelay 2147483647).wellFormed = true ∧ (Instr.setdelay (-2147483648)).wellFormed = true := by decide

/-! ## Words, written out as W : RN : DATA (R85, R88, V2) and as PHASE : MODE : EXH (R90, R91) -/

theorem test_decode_rdreg : decode (.host (0#1 ++ 0b110#3 ++ 0xFFFFFFFFFFFFFFFF#64)) = .ok (.rdreg .outLen) := by decide
theorem test_decode_nopwCtrl : decode (.host (1#1 ++ 0b000#3 ++ 0xFFFFFFFFFFFFFFFC#64)) = .ok .nopwCtrl := by decide
theorem test_decode_start : decode (.host (1#1 ++ 0b000#3 ++ 0b01#64)) = .ok .start := by decide
theorem test_decode_abort : decode (.host (1#1 ++ 0b000#3 ++ 0b10#64)) = .ok .abort := by decide
theorem test_decode_abort_before_start : decode (.host (1#1 ++ 0b000#3 ++ 0b11#64)) = .ok .abort := by decide
theorem test_decode_nopwStatus : decode (.host (1#1 ++ 0b001#3 ++ 0xFF#64)) = .ok .nopwStatus := by decide
theorem test_decode_setmode : decode (.host (1#1 ++ 0b010#3 ++ 1#64)) = .ok (.setmode .downmix) := by decide
theorem test_decode_setmode_bit0 :
    decode (.host (1#1 ++ 0b010#3 ++ 0xFFFFFFFFFFFFFFFE#64)) = .ok (.setmode .echo) := by decide
theorem test_decode_setdelay : decode (.host (1#1 ++ 0b011#3 ++ 0xABCDEF01FFFFFFFF#64)) = .ok (.setdelay (-1)) := by decide
theorem test_decode_setvscale :
    decode (.host (1#1 ++ 0b100#3 ++ 0x7FF8000000000001#64)) = .ok (.setvscale 0x7FF8000000000001#64) := by decide
theorem test_decode_nopwInPos : decode (.host (1#1 ++ 0b101#3 ++ 3#64)) = .ok .nopwInPos := by decide
theorem test_decode_nopwOutLen : decode (.host (1#1 ++ 0b110#3 ++ 3#64)) = .ok .nopwOutLen := by decide
theorem test_decode_nopwReserved : decode (.host (1#1 ++ 0b111#3 ++ 1#64)) = .ok .nopwReserved := by decide
theorem test_decode_checkEcho : decode (.seq (0b0001#4 ++ 0b0#1 ++ 0b1#1)) = .ok .checkEcho := by decide
theorem test_decode_checkDmx : decode (.seq (0b0001#4 ++ 0b1#1 ++ 0b0#1)) = .ok .checkDmx := by decide
theorem test_decode_hdrCopy : decode (.seq (0b0010#4 ++ 0b1#1 ++ 0b1#1)) = .ok .hdrCopy := by decide
theorem test_decode_echoInit : decode (.seq (0b0011#4 ++ 0b0#1 ++ 0b0#1)) = .ok .echoInit := by decide
theorem test_decode_echoMix : decode (.seq (0b0100#4 ++ 0b0#1 ++ 0b0#1)) = .ok .echoMix := by decide
theorem test_decode_echoEos : decode (.seq (0b0100#4 ++ 0b0#1 ++ 0b1#1)) = .ok .echoEos := by decide
theorem test_decode_echoFlush : decode (.seq (0b0101#4 ++ 0b0#1 ++ 0b0#1)) = .ok .echoFlush := by decide
theorem test_decode_echoFlushend : decode (.seq (0b0101#4 ++ 0b0#1 ++ 0b1#1)) = .ok .echoFlushend := by decide
theorem test_decode_hdrPatch : decode (.seq (0b0110#4 ++ 0b0#1 ++ 0b0#1)) = .ok .hdrPatch := by decide
theorem test_decode_dmxPair : decode (.seq (0b0111#4 ++ 0b1#1 ++ 0b0#1)) = .ok .dmxPair := by decide
theorem test_decode_dmxEos : decode (.seq (0b0111#4 ++ 0b1#1 ++ 0b1#1)) = .ok .dmxEos := by decide
theorem test_decode_quiescent :
    decode (.seq (0b0000#4 ++ 0b00#2)) = .error .quiescent ∧ decode (.seq (0b1001#4 ++ 0b11#2)) = .error .quiescent := by
  decide
theorem test_decode_noPhase :
    decode (.seq (0b1010#4 ++ 0b00#2)) = .error .noPhase ∧ decode (.seq (0b1111#4 ++ 0b11#2)) = .error .noPhase := by
  decide
theorem test_decodeTableWord :
    decodeTableWord 8 0x21 = some .start ∧ decodeTableWord 8 0x11 = some .echoEos ∧ decodeTableWord 8 0 = some (.rdreg .ctrl) := by
  decide

/-! ## Data (V1, V6) -/

theorem test_sampleBytes : sampleBytes (-500) = [0x0C#8, 0xFE#8] ∧ sampleBytes 32767 = [0xFF#8, 0x7F#8] := by decide
theorem test_sizeField : sizeField 216036 = [0xE4#8, 0x4B#8, 0x03#8, 0x00#8] := by decide
theorem test_scale_truncates :
    scale .binary64 0x4010000000000000#64 (-7) = -1 ∧ scale .binary64 0x4008000000000000#64 32767 = 10922 := by decide +kernel
theorem test_scale_rounds_first :
    scale .binary64 0x3FB999999999999A#64 3 = 30 ∧ scale .binary64 0x3FB99999A0000000#64 3 = 29 := by decide +kernel
theorem test_scale_saturates :
    scale .binary64 0x3FE0000000000000#64 16384 = 32767 ∧ scale .binary64 0xBFF0000000000000#64 (-32768) = 32767 ∧
      scale .binary64 0x0000000000000001#64 (-1) = -32768 := by decide +kernel


/-- A gain unit of another format, as far as two operands show it: the binary32 quotient that 42_echo.md R152 (e) gives
for 3 by the binary32 value nearest 0.1, and the smallest binary64 subnormal, which no binary32 value equals, rejected. -/
def otherFormat : GainUnit where
  quotients := [⟨f64OfInt 3, 0x3FB99999A0000000#64, f64OfInt 30⟩]
  verdicts := [⟨0x0000000000000001#64, false⟩]

-- V6: "a binary32 divider would give 30"; other operands are the default's
theorem test_scale_other_division :
    scale otherFormat 0x3FB99999A0000000#64 3 = 30 ∧ scale otherFormat 0x3FB99999A0000000#64 0 = 0 := by decide +kernel

/-! ## Single steps -/

/-- The state an operation answers, if it answers one. -/
def nextOf : Host.Outcome State Fault Refusal → Option State
  | .next t => some t
  | .fault _ => none
  | .refused _ => none

/-- The header of 95_test_vectors.md: byte `i` holds `i + 1`. -/
def header : List Byte := (List.range 44).map fun i => BitVec.ofNat 8 (i + 1)

/-- Reset with DELAY_MAX = 1048576, as in V3, a line of two samples, gain 4.0, and a sink that has settled on four
successes. -/
def base : State :=
  { State.reset with delayMax := 1048576, delay := 2#32, sink := [.ok, .ok, .ok, .ok] }

/-- `base` in CHECK, with the mode, delay and gain of a row of V3. -/
def checking (m : Mode) (d : Word32) (v : Word64) : State :=
  { base with phase := .check, mode := m, delay := d, vscale := v }

/-- `base` about to copy the header of an input. -/
def copying (m : Mode) (bytes : List Byte) (a : SinkAnswer) : State :=
  { base with phase := .hdr, mode := m, input := bytes, sink := [a] }

/-- `base` in the echo loop, with DL[0], the bytes of the next sample, and the sink's answer. -/
def mixing (echo : Sample) (bytes : List Byte) (a : SinkAnswer) : State :=
  { base with phase := .echoRun, input := bytes, dl := [(0, echo)], sink := [a] }

/-- `base` in the flush loop of a line of three, at entry `i`, which holds `x`. -/
def flushing (i : Nat) (x : Sample) (n : Nat) (a : SinkAnswer) : State :=
  { base with phase := .echoFlush, delay := 3#32, dl := [(i, x)], idx := i, flushCnt := n, sink := [a] }

/-- `base` about to patch the header before twelve bytes of data, N = 4 and DELAY = 2 of V5. -/
def patching (answers : List SinkAnswer) : State :=
  { base with phase := .patch, out := header ++ List.replicate 12 0#8, sink := answers }

/-- `base` in the downmix loop. -/
def pairing (bytes : List Byte) (a : SinkAnswer) : State :=
  { base with phase := .dmxRun, mode := .downmix, input := bytes, sink := [a] }

-- V2
theorem test_rdreg_status :
    (nextOf (exec (.rdreg .status) { base with phase := .fault, err := .errWrite })).map State.hostRead =
      some (some 0x69#64) := by decide
theorem test_rdreg_delay_unsigned :
    (nextOf (exec (.rdreg .delay) { base with delay := 0xFFFFFFFF#32 })).map State.hostRead =
      some (some 0x00000000FFFFFFFF#64) := by decide
theorem test_nopwCtrl : nextOf (exec .nopwCtrl base) = some base := by rfl
theorem test_nopwStatus : nextOf (exec .nopwStatus base) = some base := by rfl
theorem test_nopwInPos : nextOf (exec .nopwInPos base) = some base := by rfl
theorem test_nopwOutLen : nextOf (exec .nopwOutLen base) = some base := by rfl
theorem test_nopwReserved : nextOf (exec .nopwReserved base) = some base := by rfl
theorem test_start_binds_and_clears :
    (nextOf (exec .start { base with attached := ⟨header, [.fail 1]⟩, inPos := 7, out := [1#8] })).map
      (fun t => (t.phase, t.input, t.sink, t.inPos, t.out)) = some (.check, header, [.fail 1], 0, []) := by decide
theorem test_start_ignored_in_fault :
    (nextOf (exec .start { base with phase := .fault, err := .errWrite })).map (fun t => (t.phase, t.err)) =
      some (.fault, .errWrite) := by decide
theorem test_abort_acknowledges :
    (nextOf (exec .abort { base with phase := .fault, err := .errWrite, out := [1#8] })).map
      (fun t => (t.phase, t.err, t.out)) = some (.idle, .none, [1#8]) := by decide
theorem test_setmode : (nextOf (exec (.setmode .downmix) base)).map State.mode = some .downmix := by decide
theorem test_setmode_ignored_in_done :
    (nextOf (exec (.setmode .downmix) { base with phase := .done })).map State.mode = some .echo := by decide
theorem test_setdelay_negative :
    (nextOf (exec (.setdelay (-1)) base)).map State.delay = some 0xFFFFFFFF#32 := by decide
theorem test_setdelay_ignored_while_busy :
    (nextOf (exec (.setdelay 5) { base with phase := .echoRun })).map State.delay = some 2#32 := by decide
theorem test_setvscale_keeps_nan :
    (nextOf (exec (.setvscale 0x7FF8000000000001#64) base)).map State.vscale = some 0x7FF8000000000001#64 := by decide

-- V3
theorem test_checkEcho_order :
    (nextOf (exec .checkEcho (checking .echo 1048577#32 0x7FF8000000000000#64))).map State.status = some 0x29#64 ∧
    (nextOf (exec .checkEcho (checking .echo 0#32 0#64))).map State.status = some 0x19#64 := by decide
theorem test_checkEcho_capacity :
    (nextOf (exec .checkEcho (checking .echo 1048577#32 0x4010000000000000#64))).map State.status = some 0x39#64 ∧
    (nextOf (exec .checkEcho (checking .echo 1048576#32 1#64))).map State.status = some 0x02#64 := by decide
-- D5: another format's legality predicate
theorem test_checkEcho_other_format :
    (nextOf (exec .checkEcho { checking .echo 5#32 1#64 with gain := otherFormat })).map State.status = some 0x29#64 := by
  decide
theorem test_checkDmx_checks_nothing :
    (nextOf (exec .checkDmx (checking .downmix 0#32 0x7FF8000000000000#64))).map State.status = some 0x02#64 := by decide

-- V4
theorem test_hdrCopy_short :
    (nextOf (exec .hdrCopy (copying .echo (header.take 43) .ok))).map (fun t => (t.status, t.inPos, t.out)) =
      some (0x49#64, 0, []) := by decide
theorem test_hdrCopy_torn :
    (nextOf (exec .hdrCopy (copying .downmix header (.fail 10)))).map (fun t => (t.status, t.inPos, t.out)) =
      some (0x59#64, 44, [1#8, 2#8, 3#8, 4#8, 5#8, 6#8, 7#8, 8#8, 9#8, 10#8]) := by decide

-- R145
theorem test_echoInit_clears_in_use :
    (nextOf (exec .echoInit { base with phase := .echoInit, dl := [(1, 7#16), (2, 8#16)], idx := 9, flushCnt := 4 })).map
      (fun t => (t.dl, t.idx, t.flushCnt, t.phase)) = some ([(2, 8#16)], 0, 0, .echoRun) := by decide

-- V7, rows 5 and 8 of it
theorem test_echoMix_clamps_and_stores_raw :
    (nextOf (exec .echoMix (mixing 0x8000#16 [0x00#8, 0x80#8] .ok))).map (fun t => (t.out, t.dl, t.idx, t.inPos)) =
      some ([0x00#8, 0x80#8], [(0, 0x8000#16)], 1, 2) := by decide +kernel
theorem test_echoMix_adds_scaled :
    (nextOf (exec .echoMix (mixing 200#16 [0x9C#8, 0xFF#8] .ok))).map (fun t => (t.out, t.dl)) =
      some ([0xCE#8, 0xFF#8], [(0, 0xFF9C#16)]) := by decide +kernel

-- V9
theorem test_echoEos_discards_stray :
    (nextOf (exec .echoEos { base with phase := .echoRun, input := header ++ [1#8], inPos := 44 })).map
      (fun t => (t.inPos, t.phase, t.out)) = some (45, .echoFlush, []) := by decide
theorem test_echoFlushend :
    (nextOf (exec .echoFlushend { base with phase := .echoFlush, flushCnt := 2 })).map State.phase = some .patch := by
  decide

-- V8, rows 1 and 2
theorem test_echoFlush_first :
    (nextOf (exec .echoFlush (flushing 1 0x8000#16 0 .ok))).map (fun t => (t.out, t.idx, t.flushCnt, t.dl)) =
      some ([0x00#8, 0xE0#8], 2, 1, [(1, 0x8000#16)]) := by decide +kernel
theorem test_echoFlush_wraps :
    (nextOf (exec .echoFlush (flushing 2 0xFFF9#16 1 .ok))).map (fun t => (t.out, t.idx, t.flushCnt)) =
      some ([0xFF#8, 0xFF#8], 0, 2) := by decide +kernel

-- V5 and its failing overwrite
theorem test_hdrPatch_sizes :
    (nextOf (exec .hdrPatch (patching [.ok, .ok]))).map (fun t => (t.phase, t.out.take 9, (t.out.drop 39).take 5)) =
      some (.done, [1#8, 2#8, 3#8, 4#8, 0x30#8, 0#8, 0#8, 0#8, 9#8], [0x28#8, 0x0C#8, 0#8, 0#8, 0#8]) := by decide
theorem test_hdrPatch_second_fails :
    (nextOf (exec .hdrPatch (patching [.ok, .fail 2]))).map
      (fun t => (t.status, (t.out.drop 4).take 4, (t.out.drop 40).take 4)) =
      some (0x79#64, [0x30#8, 0#8, 0#8, 0#8], [0x0C#8, 0#8, 0x2B#8, 0x2C#8]) := by decide

-- V10, rows 4 and 8
theorem test_dmxPair_extreme :
    (nextOf (exec .dmxPair (pairing [0xFF#8, 0x7F#8, 0x00#8, 0x80#8] .ok))).map (fun t => (t.out, t.inPos)) =
      some ([0xFF#8, 0x7F#8, 0xFF#8, 0x7F#8], 4) := by decide
theorem test_dmxPair_truncates_toward_zero :
    (nextOf (exec .dmxPair (pairing [0#8, 0#8, 3#8, 0#8] .ok))).map State.out =
      some [0xFF#8, 0xFF#8, 0xFF#8, 0xFF#8] := by decide

-- V9
theorem test_dmxEos_discards_leftover :
    (nextOf (exec .dmxEos (pairing [1#8, 2#8, 3#8] .ok))).map (fun t => (t.inPos, t.phase, t.out)) =
      some (3, .done, []) := by decide

-- R230
theorem test_reset_turn :
    (nextOf (step { base with phase := .echoRun, out := [1#8], schedule := [.reset] })).map
      (fun t => (t.status, t.delay, t.vscale, t.out)) = some (0#64, 8000#32, 0x4010000000000000#64, []) := by decide

/-! ## Witnesses: for every obligation with hypotheses, a state and operands that meet them together -/

-- Encoding.
theorem witness_DecodeEncodeRoundTrip :
    (Instr.setdelay (-2147483648)).wellFormed = true ∧ (Instr.setdelay 2147483647).wellFormed = true ∧
      (Instr.rdreg .reserved).wellFormed = true := by decide
theorem witness_HostWordSelectsExactlyItsRow :
    (Instr.abort).row.selects (.host 0x80000000000000003#68) = true := by decide
theorem witness_SequencerSelectorDecodesByItsRow :
    (Instr.echoEos).row.selects (.seq 0b010011#6) = true ∧ decodeSeq 0b010011#6 = .ok .echoEos := by decide
theorem witness_HostOperandsComeFromTheirBits_read : (0x70000000000000000#68 : HostWord).getLsbD 67 = false := by decide
theorem witness_HostOperandsComeFromTheirBits_write :
    (0x80000000000000000#68 : HostWord).getLsbD 67 = true ∧
      (0x80000000000000000#68 : HostWord).extractLsb' 64 3 = 0#3 ∧
      (0x90000000000000000#68 : HostWord).extractLsb' 64 3 = 1#3 ∧
      (0xA0000000000000000#68 : HostWord).extractLsb' 64 3 = 2#3 ∧
      (0xB0000000000000000#68 : HostWord).extractLsb' 64 3 = 3#3 ∧
      (0xC0000000000000000#68 : HostWord).extractLsb' 64 3 = 4#3 ∧
      (0xD0000000000000000#68 : HostWord).extractLsb' 64 3 = 5#3 ∧
      (0xE0000000000000000#68 : HostWord).extractLsb' 64 3 = 6#3 ∧
      (0xF0000000000000000#68 : HostWord).extractLsb' 64 3 = 7#3 ∧
      (0xF0000000000000000#68 : HostWord).getLsbD 67 = true := by decide

-- The step.
theorem witness_StepRunsTheDecodedOperation_transaction :
    { base with schedule := [.transaction 0x80000000000000001#68] }.schedule =
        .transaction 0x80000000000000001#68 :: [] ∧
      decode (.host 0x80000000000000001#68) = .ok .start := by decide
theorem witness_StepRunsTheDecodedOperation_sequencer :
    { base with phase := .check, schedule := [.sequencer] }.schedule = .sequencer :: [] ∧
      decode (.seq { base with phase := .check, schedule := [.sequencer] }.selector) = .ok .checkEcho := by decide
theorem witness_StepRunsTheDecodedOperation_empty :
    (pairing [1#8, 2#8, 3#8] .ok).schedule = [] ∧
      decode (.seq (pairing [1#8, 2#8, 3#8] .ok).selector) = .ok .dmxEos := by decide
theorem witness_QuiescentSequencerChangesNothing :
    base.phase = .idle ∧ base.schedule = [] ∧ { base with phase := .done }.phase = .done ∧
      { base with phase := .fault, schedule := [.sequencer] }.phase = .fault ∧
      { base with phase := .fault, schedule := [.sequencer] }.schedule = .sequencer :: [] ∧
      (Instr.hdrPatch).format = .seq := by decide
theorem witness_EnabledExactlyWhenSelected :
    (Instr.echoMix).format = .seq ∧ (mixing 0#16 [1#8, 2#8] .ok).enables .echoMix = true := by decide
theorem witness_DisabledOperationIsRefused :
    (Instr.echoMix).format = .seq ∧ (mixing 0#16 [1#8] .ok).enables .echoMix = false := by decide

-- Host operations.
theorem witness_SetmodeEffect :
    (0xAFFFFFFFFFFFFFFFE#68 : HostWord).getLsbD 67 = true ∧
      (0xAFFFFFFFFFFFFFFFE#68 : HostWord).extractLsb' 64 3 = 2#3 ∧
      base.phase = .idle ∧ { base with phase := .done }.phase ≠ .idle := by decide
theorem witness_SetdelayEffect :
    (0xBABCDEF01FFFFFFFF#68 : HostWord).getLsbD 67 = true ∧
      (0xBABCDEF01FFFFFFFF#68 : HostWord).extractLsb' 64 3 = 3#3 ∧
      base.phase = .idle ∧ { base with phase := .echoRun }.phase ≠ .idle := by decide
theorem witness_SetvscaleEffect :
    (0xC7FF8000000000001#68 : HostWord).getLsbD 67 = true ∧
      (0xC7FF8000000000001#68 : HostWord).extractLsb' 64 3 = 4#3 ∧
      base.phase = .idle ∧ { base with phase := .patch }.phase ≠ .idle := by decide
theorem witness_AbortEffect :
    (0x80000000000000003#68 : HostWord).getLsbD 67 = true ∧
      (0x80000000000000003#68 : HostWord).extractLsb' 64 3 = 0#3 ∧
      (0x80000000000000003#68 : HostWord).getLsbD 1 = true := by decide
theorem witness_NopwHasNoEffect_ctrl :
    (0x8FFFFFFFFFFFFFFFC#68 : HostWord).getLsbD 67 = true ∧
      (0x8FFFFFFFFFFFFFFFC#68 : HostWord).extractLsb' 64 3 = 0#3 ∧
      (0x8FFFFFFFFFFFFFFFC#68 : HostWord).extractLsb' 0 2 = 0#2 := by decide
theorem witness_NopwHasNoEffect_readOnly :
    (0x900000000000000FF#68 : HostWord).getLsbD 67 = true ∧
      (0x900000000000000FF#68 : HostWord).extractLsb' 64 3 ∈ [1#3, 5#3, 6#3, 7#3] ∧
      (0xF0000000000000001#68 : HostWord).extractLsb' 64 3 ∈ [1#3, 5#3, 6#3, 7#3] := by decide
theorem witness_StartEffect : base.phase = .idle ∧ { base with phase := .fault }.phase ≠ .idle := by decide
theorem witness_HostOperationsNeverFault :
    (Instr.rdreg .ctrl).format = .host ∧ Instr.rdreg .ctrl ≠ .start ∧ { base with phase := .fault }.phase = .fault := by
  decide
theorem witness_OnlyAbortDisturbsABusyRun :
    (Instr.start).format = .host ∧ Instr.start ≠ .abort ∧ (mixing 0#16 [] .ok).phase.busy = true := by decide

-- Checking and the header.
theorem witness_CheckEchoEffect :
    (checking .echo 0#32 0#64).phase = .check ∧ (checking .echo 0#32 0#64).mode = .echo ∧
      (checking .echo 0#32 0#64).gain.verdicts = [] := by decide
theorem witness_CheckDmxEffect :
    (checking .downmix 0#32 0#64).phase = .check ∧ (checking .downmix 0#32 0#64).mode = .downmix := by decide
theorem witness_HdrCopyEffect_short :
    (copying .echo (header.take 43) .ok).phase = .hdr ∧
      (copying .echo (header.take 43) .ok).input.length < (copying .echo (header.take 43) .ok).inPos + 44 := by decide
theorem witness_HdrCopyEffect_ok :
    (copying .echo header .ok).phase = .hdr ∧
      (copying .echo header .ok).inPos + 44 ≤ (copying .echo header .ok).input.length ∧
      (copying .echo header .ok).sinkAnswer = .ok := by decide
theorem witness_HdrCopyEffect_fail :
    (copying .downmix header (.fail 43)).phase = .hdr ∧
      (copying .downmix header (.fail 43)).inPos + 44 ≤ (copying .downmix header (.fail 43)).input.length ∧
      43 < 44 ∧ (copying .downmix header (.fail 43)).sinkAnswer = .fail 43 := by decide
theorem witness_HdrPatchRewritesTheSizes :
    (patching [.ok, .ok]).phase = .patch ∧ 44 ≤ (patching [.ok, .ok]).out.length ∧
      (patching [.ok, .ok]).sinkAnswer = .ok ∧ (patching [.ok, .ok]).sinkAsked.sinkAnswer = .ok := by decide
theorem witness_HdrPatchFailure_first :
    (patching [.fail 3]).phase = .patch ∧ 44 ≤ (patching [.fail 3]).out.length ∧ 3 < 4 ∧
      (patching [.fail 3]).sinkAnswer = .fail 3 := by decide
theorem witness_HdrPatchFailure_second :
    (patching [.ok, .fail 0]).phase = .patch ∧ 44 ≤ (patching [.ok, .fail 0]).out.length ∧ 0 < 4 ∧
      (patching [.ok, .fail 0]).sinkAnswer = .ok ∧ (patching [.ok, .fail 0]).sinkAsked.sinkAnswer = .fail 0 := by decide

-- The Echo Mixer.
theorem witness_EchoInitZeroesTheLine : { base with phase := .echoInit }.phase = .echoInit := by decide
theorem witness_EchoMixEmitsAndStores :
    (mixing 5#16 [1#8, 2#8] .ok).phase = .echoRun ∧ (mixing 5#16 [1#8, 2#8] .ok).input[0]? = some 1#8 ∧
      (mixing 5#16 [1#8, 2#8] .ok).input[0 + 1]? = some 2#8 ∧ (mixing 5#16 [1#8, 2#8] .ok).inPos = 0 ∧
      Memory.wf (mixing 5#16 [1#8, 2#8] .ok).dl = true ∧
      (mixing 5#16 [1#8, 2#8] .ok).idx < (mixing 5#16 [1#8, 2#8] .ok).delayNat ∧
      (mixing 5#16 [1#8, 2#8] .ok).idx < (mixing 5#16 [1#8, 2#8] .ok).delayMax ∧
      (mixing 5#16 [1#8, 2#8] .ok).sinkAnswer = .ok := by decide
theorem witness_EchoMixSinkFailure :
    (mixing 5#16 [1#8, 2#8] (.fail 1)).phase = .echoRun ∧
      (mixing 5#16 [1#8, 2#8] (.fail 1)).input[0]? = some 1#8 ∧
      (mixing 5#16 [1#8, 2#8] (.fail 1)).input[0 + 1]? = some 2#8 ∧ (mixing 5#16 [1#8, 2#8] (.fail 1)).inPos = 0 ∧
      (mixing 5#16 [1#8, 2#8] (.fail 1)).idx < (mixing 5#16 [1#8, 2#8] (.fail 1)).delayNat ∧
      (mixing 5#16 [1#8, 2#8] (.fail 1)).idx < (mixing 5#16 [1#8, 2#8] (.fail 1)).delayMax ∧ 1 < 2 ∧
      (mixing 5#16 [1#8, 2#8] (.fail 1)).sinkAnswer = .fail 1 := by decide
theorem witness_EchoEosEffect :
    (mixing 0#16 [7#8] .ok).phase = .echoRun ∧ (mixing 0#16 [7#8] .ok).inPos ≤ (mixing 0#16 [7#8] .ok).input.length ∧
      (mixing 0#16 [7#8] .ok).input.length < (mixing 0#16 [7#8] .ok).inPos + 2 := by decide
theorem witness_EchoFlushEffect_ok :
    (flushing 2 1#16 2 .ok).phase = .echoFlush ∧
      ((flushing 2 1#16 2 .ok).flushCnt : Int) < (flushing 2 1#16 2 .ok).delay.toInt ∧
      (flushing 2 1#16 2 .ok).idx < (flushing 2 1#16 2 .ok).delayNat ∧
      (flushing 2 1#16 2 .ok).idx < (flushing 2 1#16 2 .ok).delayMax ∧ (flushing 2 1#16 2 .ok).sinkAnswer = .ok := by
  decide
theorem witness_EchoFlushEffect_fail :
    (flushing 0 1#16 0 (.fail 1)).phase = .echoFlush ∧
      ((flushing 0 1#16 0 (.fail 1)).flushCnt : Int) < (flushing 0 1#16 0 (.fail 1)).delay.toInt ∧
      (flushing 0 1#16 0 (.fail 1)).idx < (flushing 0 1#16 0 (.fail 1)).delayNat ∧
      (flushing 0 1#16 0 (.fail 1)).idx < (flushing 0 1#16 0 (.fail 1)).delayMax ∧ 1 < 2 ∧
      (flushing 0 1#16 0 (.fail 1)).sinkAnswer = .fail 1 := by decide
theorem witness_EchoFlushendEffect :
    (flushing 0 1#16 3 .ok).phase = .echoFlush ∧
      (flushing 0 1#16 3 .ok).delay.toInt ≤ ((flushing 0 1#16 3 .ok).flushCnt : Int) := by decide
theorem witness_OutsideTheLineStops_delay :
    { mixing 0#16 [1#8, 2#8] .ok with idx := 2 }.delayNat ≤ { mixing 0#16 [1#8, 2#8] .ok with idx := 2 }.idx ∧
      { mixing 0#16 [1#8, 2#8] .ok with idx := 2 }.enables .echoMix = true := by decide
theorem witness_OutsideTheLineStops_capacity :
    { flushing 2 1#16 0 .ok with delayMax := 2 }.delayMax ≤ { flushing 2 1#16 0 .ok with delayMax := 2 }.idx ∧
      { flushing 2 1#16 0 .ok with delayMax := 2 }.enables .echoFlush = true := by decide

-- The Downmix Filter.
theorem witness_DmxPairEffect_ok :
    (pairing [1#8, 2#8, 3#8, 4#8] .ok).phase = .dmxRun ∧ (pairing [1#8, 2#8, 3#8, 4#8] .ok).inPos = 0 ∧
      (pairing [1#8, 2#8, 3#8, 4#8] .ok).input[0]? = some 1#8 ∧
      (pairing [1#8, 2#8, 3#8, 4#8] .ok).input[0 + 1]? = some 2#8 ∧
      (pairing [1#8, 2#8, 3#8, 4#8] .ok).input[0 + 2]? = some 3#8 ∧
      (pairing [1#8, 2#8, 3#8, 4#8] .ok).input[0 + 3]? = some 4#8 ∧
      (pairing [1#8, 2#8, 3#8, 4#8] .ok).sinkAnswer = .ok := by decide
theorem witness_DmxPairEffect_fail :
    (pairing [1#8, 2#8, 3#8, 4#8] (.fail 3)).phase = .dmxRun ∧ (pairing [1#8, 2#8, 3#8, 4#8] (.fail 3)).inPos = 0 ∧
      (pairing [1#8, 2#8, 3#8, 4#8] (.fail 3)).input = [1#8, 2#8, 3#8, 4#8] ∧ 3 < 4 ∧
      (pairing [1#8, 2#8, 3#8, 4#8] (.fail 3)).sinkAnswer = .fail 3 := by decide
theorem witness_DmxEosEffect :
    (pairing [1#8, 2#8, 3#8] .ok).phase = .dmxRun ∧
      (pairing [1#8, 2#8, 3#8] .ok).inPos ≤ (pairing [1#8, 2#8, 3#8] .ok).input.length ∧
      (pairing [1#8, 2#8, 3#8] .ok).input.length < (pairing [1#8, 2#8, 3#8] .ok).inPos + 4 := by decide

-- Faults and the phase graph.
theorem witness_FaultEntryKeepsTheRest :
    ∃ t, (pairing [1#8, 2#8, 3#8, 4#8] (.fail 3)).phase ≠ .fault ∧
      exec .dmxPair (pairing [1#8, 2#8, 3#8, 4#8] (.fail 3)) = .next t ∧ t.phase = .fault :=
  ⟨_, by decide, rfl, by decide⟩
theorem witness_PhaseFollowsTheGraph :
    ∃ t, exec .echoEos (mixing 0#16 [7#8] .ok) = .next t ∧ t.phase = .echoFlush := ⟨_, rfl, by decide⟩

-- Arithmetic.
theorem witness_ScaleIsASample :
    ((-32768 : Int) ≤ -32768 ∧ (-32768 : Int) ≤ 32767) ∧ ((-32768 : Int) ≤ 32767 ∧ (32767 : Int) ≤ 32767) := by decide
theorem witness_SampleBytesReadBack : (-32768 : Int) ≤ -500 ∧ (-500 : Int) ≤ 32767 := by decide
theorem witness_RealIsExact : (-32768 : Int) ≤ -1 ∧ (-1 : Int) ≤ 32767 := by decide
theorem witness_GainDivisionIsNearestEven_finite :
    f64Finite (f64OfInt 3) = true ∧ f64Finite 0x3FB999999999999A#64 = true ∧ f64IsZero 0x3FB999999999999A#64 = false ∧
      f64Finite (GainUnit.binary64.fdiv (f64OfInt 3) 0x3FB999999999999A#64) = true := by decide +kernel
theorem witness_GainDivisionIsNearestEven_overflow :
    f64Finite (f64OfInt 1) = true ∧ f64Finite 1#64 = true ∧ f64IsZero 1#64 = false ∧
      f64Finite (GainUnit.binary64.fdiv (f64OfInt 1) 1#64) = false := by decide +kernel
theorem witness_GainDivisionIsNearestEven_tie :
    f64Finite 1#64 = true ∧ f64Finite 0x4000000000000000#64 = true ∧ f64IsZero 0x4000000000000000#64 = false ∧
      f64Finite (GainUnit.binary64.fdiv 1#64 0x4000000000000000#64) = true ∧
      ((f64Mag (GainUnit.binary64.fdiv 1#64 0x4000000000000000#64) * f64Mag 0x4000000000000000#64 : Nat) -
          (f64Mag 1#64 * f64One : Nat) : Int).natAbs =
        ((f64Mag 1#64 * f64Mag 0x4000000000000000#64 : Nat) - (f64Mag 1#64 * f64One : Nat) : Int).natAbs ∧
      f64Mag 1#64 ≠ f64Mag (GainUnit.binary64.fdiv 1#64 0x4000000000000000#64) := by decide +kernel
theorem witness_DefaultDividesExactly :
    f64Finite (f64OfInt (-7)) = true ∧ f64Finite 0x4000000000000000#64 = true ∧ f64IsZero 0x4000000000000000#64 = false ∧
      f64Finite 0xC00C000000000000#64 = true ∧
      f64Mag 0xC00C000000000000#64 * f64Mag 0x4000000000000000#64 = f64Mag (f64OfInt (-7)) * f64One := by
  decide +kernel
theorem witness_ScaleOfAnExactQuotient :
    vscaleLegal 0xC000000000000000#64 = true ∧ f64Finite 0x4004000000000000#64 = true ∧ (-32768 : Int) ≤ 5 ∧
      (5 : Int) ≤ 32767 ∧ GainUnit.binary64.ExactAt (f64OfInt 5) 0xC000000000000000#64 ∧
      f64Mag 0x4004000000000000#64 * f64Mag 0xC000000000000000#64 = (5 : Int).natAbs * f64One * f64One :=
  ⟨by decide, by decide, by decide, by decide,
    GainUnit.exactAt_of_quotient _ _ _ 0xC004000000000000#64 (by decide +kernel) (by decide +kernel) (by decide)
      (by decide +kernel) (by decide +kernel), by decide +kernel⟩
theorem witness_ScaleOfZeroIsZero :
    vscaleLegal 0x0000000000000001#64 = true ∧ GainUnit.binary64.ExactAt (f64OfInt 0) 0x0000000000000001#64 :=
  ⟨by decide, GainUnit.exactAt_of_quotient _ _ _ 0#64 (by decide +kernel) (by decide +kernel) (by decide)
    (by decide +kernel) (by decide +kernel)⟩
theorem witness_ScaleByAPowerOfTwo :
    1023 ≤ 1023 ∧ (-32768 : Int) ≤ -32768 ∧ (-32768 : Int) ≤ 32767 ∧
      GainUnit.binary64.ExactAt (f64OfInt (-32768)) (BitVec.ofNat 64 ((1023 + 1023) * 2 ^ 52)) :=
  ⟨by decide, by decide, by decide,
    GainUnit.exactAt_of_quotient _ _ _ 0x80F0000000000000#64 (by decide +kernel) (by decide +kernel) (by decide)
      (by decide +kernel) (by decide +kernel)⟩
theorem witness_ScaleByAFractionOfTwo_normal :
    1 ≤ 1022 ∧ 1022 ≤ 1022 ∧ (-32768 : Int) ≤ 32767 ∧ (32767 : Int) ≤ 32767 := by decide
theorem witness_ScaleByAFractionOfTwo_subnormal :
    1 ≤ 1074 ∧ 1023 ≤ 1074 ∧ 1074 ≤ 1074 ∧ (-32768 : Int) ≤ -1 ∧ (-1 : Int) ≤ 32767 := by decide
theorem witness_ScaleIsMonotoneAndOdd_positive :
    vscaleLegal 0x3FE0000000000000#64 = true ∧ f64Sign 0x3FE0000000000000#64 = false ∧ (-32768 : Int) ≤ -16385 ∧
      (-16385 : Int) ≤ 16384 ∧ (16384 : Int) ≤ 32767 := by decide
theorem witness_ScaleIsMonotoneAndOdd_odd :
    vscaleLegal 0xBFF0000000000000#64 = true ∧ (-32767 : Int) ≤ 32767 ∧ (32767 : Int) ≤ 32767 := by decide

-- Invariants. A run of one sample, 100, through a line of two, at the head of the echo loop and at its end.

/-- The state at the head of the echo loop. -/
def echoHead : State :=
  { base with phase := .echoRun, input := header ++ [100#8, 0#8], inPos := 44, out := header }

/-- The state in DONE: output samples 100, 0 and 25. -/
def echoDone : State :=
  { base with
    phase := .done
    input := header ++ [100#8, 0#8]
    inPos := 46
    out := patchedHeader header 50 ++ [100#8, 0#8, 0#8, 0#8, 25#8, 0#8] }

/-- The state in DONE of a downmix run of the pairs of P2, with a stray byte. -/
def downmixDone : State :=
  { base with
    phase := .done
    mode := .downmix
    input := header ++ [0xE8#8, 3#8, 0xE8#8, 3#8, 0xF4#8, 1#8, 0x0C#8, 0xFE#8, 77#8]
    inPos := 53
    out := header ++ [0#8, 0#8, 0#8, 0#8, 0xF4#8, 1#8, 0xF4#8, 1#8] }

/-- The invariant, clause by clause. -/
theorem inv_of_clauses (s : State)
    (h : Memory.wf s.dl = true ∧ (1 ≤ s.delayMax ∧ s.delayMax ≤ 2147483647) ∧
      (s.err ≠ .none ↔ s.phase = .fault) ∧ s.inPos ≤ s.input.length ∧
      (s.phase.echoOnly = true → s.mode = .echo) ∧ (s.phase = .dmxRun → s.mode = .downmix) ∧
      (s.phase.echoOnly = true ∨ (s.phase = .hdr ∧ s.mode = .echo) →
        0 < s.delay.toInt ∧ s.delay.toInt ≤ (s.delayMax : Int) ∧ s.gain.accepts s.vscale = true) ∧
      (s.phase = .check ∨ s.phase = .hdr → s.inPos = 0 ∧ s.out = []) ∧
      (s.phase.echoOnly = true ∨ s.phase = .dmxRun → hdrSize ≤ s.inPos ∧ hdrSize ≤ s.out.length) ∧
      (s.phase = .echoRun ∨ s.phase = .echoFlush → s.idx < s.delayNat ∧ s.flushCnt ≤ s.delayNat) ∧
      (s.phase = .echoRun → s.flushCnt = 0)) : s.Inv :=
  let ⟨a, b, c, d, e, f, g, h, i, j, k⟩ := h
  ⟨a, b, c, d, e, f, g, h, i, j, k⟩

theorem inv_echoHead : echoHead.Inv := inv_of_clauses _ (by decide)
theorem inv_echoDone : echoDone.Inv := inv_of_clauses _ (by decide)
theorem inv_downmixDone : downmixDone.Inv := inv_of_clauses _ (by decide)

theorem runInv_echoHead : echoHead.RunInv := by
  refine ⟨inv_echoHead, 0, by decide, by decide, by decide, ?_⟩
  show ∀ k, k < 2 → (Memory.read [] ((0 + k) % 2)).toInt = inSample echoHead.input (((0 : Nat) : Int) - (2 : Nat) + k)
  decide
theorem runInv_echoDone : echoDone.RunInv := ⟨inv_echoDone, by decide, by decide, by decide +kernel⟩
theorem runInv_downmixDone : downmixDone.RunInv := ⟨inv_downmixDone, by decide, by decide, by decide +kernel⟩

theorem witness_EveryStepKeepsTheInvariant : echoHead.Inv ∧ ∃ t, step echoHead = .next t := ⟨inv_echoHead, _, rfl⟩
theorem witness_EveryStepKeepsTheTrace : echoHead.RunInv ∧ ∃ t, step echoHead = .next t := ⟨runInv_echoHead, _, rfl⟩
theorem witness_ErrIsSetExactlyInFault :
    (echoHead.err ≠ .none ↔ echoHead.phase = .fault) ∧ ∃ t, step echoHead = .next t := ⟨by decide, _, rfl⟩
theorem witness_GoodStatesNeverStop : echoHead.Inv := inv_echoHead
theorem witness_ConfigurationIsFrozenWhileBusy :
    { echoHead with schedule := [.transaction 0xB0000000000000002#68] }.phase.busy = true ∧
      (∀ rest, { echoHead with schedule := [.transaction 0xB0000000000000002#68] }.schedule ≠ .reset :: rest) ∧
      ∃ t, step { echoHead with schedule := [.transaction 0xB0000000000000002#68] } = .next t :=
  ⟨by decide, by simp, _, rfl⟩
theorem witness_OnlyHdrPatchOverwritesOut_prefix :
    ∃ t, exec .echoEos (mixing 0#16 [7#8] .ok) = .next t ∧ Instr.echoEos ≠ .hdrPatch ∧ Instr.echoEos ≠ .start :=
  ⟨_, rfl, by decide, by decide⟩
theorem witness_OnlyHdrPatchOverwritesOut_patch : ∃ t, exec .hdrPatch (patching [.ok, .ok]) = .next t := ⟨_, rfl⟩
theorem witness_InputIsReadOnceInOrder :
    Instr.dmxEos ≠ .start ∧ (pairing [1#8, 2#8, 3#8] .ok).inPos ≤ (pairing [1#8, 2#8, 3#8] .ok).input.length ∧
      ∃ t, exec .dmxEos (pairing [1#8, 2#8, 3#8] .ok) = .next t := ⟨by decide, by decide, _, rfl⟩

-- Whole runs.

/-- CHECK with one sample to come, and a sink that succeeds as often as the run writes. -/
def checkHead (m : Mode) : State :=
  { base with phase := .check, mode := m, input := header ++ [100#8, 0#8], sink := List.replicate 6 .ok }

theorem inv_checkHead (m : Mode) : (checkHead m).Inv := by
  cases m <;> exact inv_of_clauses _ (by decide)

theorem witness_EchoResultInClosedForm :
    echoDone.RunInv ∧ echoDone.phase = .done ∧ echoDone.mode = .echo ∧ 0 < sampleCount echoDone.input ∧
      1 < echoDone.delayNat := ⟨runInv_echoDone, by decide, by decide, by decide, by decide⟩
theorem witness_DownmixResultInClosedForm :
    downmixDone.RunInv ∧ downmixDone.phase = .done ∧ downmixDone.mode = .downmix ∧ 1 < pairCount downmixDone.input :=
  ⟨runInv_downmixDone, by decide, by decide, by decide⟩
theorem witness_BusySequencerMakesProgress :
    echoHead.Inv ∧ echoHead.phase.busy = true ∧ echoHead.schedule = [] := ⟨inv_echoHead, by decide, by decide⟩
theorem witness_SuccessfulRunLength_echo :
    (checkHead .echo).Inv ∧ (checkHead .echo).phase = .check ∧ (checkHead .echo).schedule = [] ∧
      44 ≤ (checkHead .echo).input.length ∧ (checkHead .echo).mode = .echo ∧ (checkHead .echo).echoConfigLegal ∧
      (checkHead .echo).sinkOkFor (sampleCount (checkHead .echo).input + (checkHead .echo).delayNat + 3) ∧
      0 < sampleCount (checkHead .echo).input + (checkHead .echo).delayNat + 6 :=
  ⟨inv_checkHead _, by decide, by decide, by decide, by decide, ⟨by decide, by decide, by decide⟩, ⟨by decide, by decide⟩,
    by decide⟩
theorem witness_SuccessfulRunLength_downmix :
    (checkHead .downmix).Inv ∧ (checkHead .downmix).phase = .check ∧ (checkHead .downmix).schedule = [] ∧
      44 ≤ (checkHead .downmix).input.length ∧ (checkHead .downmix).mode = .downmix ∧
      (checkHead .downmix).sinkOkFor (pairCount (checkHead .downmix).input + 1) ∧
      0 < pairCount (checkHead .downmix).input + 3 :=
  ⟨inv_checkHead _, by decide, by decide, by decide, by decide, ⟨by decide, by decide⟩, by decide⟩

/-- `echoHead` with something else left in the entries no run of a line of two reads. -/
def echoHeadStale : State := { echoHead with dl := [(2, 9#16)] }

theorem witness_StaleDelayLineNeverShows :
    echoHead.Inv ∧ echoHeadStale.Inv ∧ echoHead.sameRun echoHeadStale ∧ ∃ t, step echoHead = .next t := by
  refine ⟨inv_echoHead, inv_of_clauses _ (by decide), ⟨rfl, fun _ => ⟨rfl, rfl, ?_⟩⟩, _, rfl⟩
  show ∀ i, i < 2 → Memory.read [(2, 9#16)] i = Memory.read [] i
  decide

-- Reset.
theorem witness_ResetValues : { echoHead with schedule := [.reset] }.schedule = .reset :: [] := by decide

end Sys2Proof.Tests
end

section
/-! The fields of a pattern built from its bits, and exact rounding: a quotient whose magnitude has at most 53
significant bits is answered exactly (30_encoding.md R81, 42_echo.md R150). -/

namespace Sys2Proof.Machine

@[simp] theorem f64Sign_f64OfBits (neg : Bool) (bits : Nat) : f64Sign (f64OfBits neg bits) = neg := by
  rw [f64Sign, f64OfBits, BitVec.getLsbD_append]
  simp

theorem f64OfBits_toNat (neg : Bool) (bits : Nat) :
    (f64OfBits neg bits).toNat = neg.toNat * 2 ^ 63 + bits % 2 ^ 63 := by
  rw [f64OfBits, BitVec.toNat_append, BitVec.toNat_ofNat, BitVec.toNat_ofBool,
    ← Nat.shiftLeft_add_eq_or_of_lt (Nat.mod_lt _ (Nat.two_pow_pos 63)), Nat.shiftLeft_eq]

/-- The exponent of a pattern is what its bits 62:0 hold above the fraction. -/
theorem f64Exp_f64OfBits (neg : Bool) {bits : Nat} (h : bits < 2 ^ 63) :
    f64Exp (f64OfBits neg bits) = bits / 2 ^ 52 := by
  rw [f64Exp, BitVec.extractLsb'_toNat, f64OfBits_toNat, Nat.shiftRight_eq_div_pow]
  omega

@[simp] theorem f64Frac_f64OfBits (neg : Bool) (bits : Nat) : f64Frac (f64OfBits neg bits) = bits % 2 ^ 52 := by
  rw [f64Frac, BitVec.extractLsb'_toNat, f64OfBits_toNat, Nat.shiftRight_zero]
  omega

/-- Below the bits of an infinity every pattern is finite. -/
theorem f64Finite_f64OfBits (neg : Bool) {bits : Nat} (h : bits < f64InfBits) :
    f64Finite (f64OfBits neg bits) = true := by
  rw [f64InfBits] at h
  rw [f64Finite, f64Exp_f64OfBits neg (by omega), bne_iff_ne]
  omega

/-- The bits of a significand `k` at a shift `s` encode `k` units of 2^`s`. The carry of a significand of 2^53 into the
exponent is included. -/
theorem f64Mag_f64OfBits_shifted (neg : Bool) {s k : Nat} (hk : k ≤ 2 ^ 53) (hnormal : s = 0 ∨ 2 ^ 52 ≤ k)
    (hbits : s * 2 ^ 52 + k < f64InfBits) : f64Mag (f64OfBits neg (s * 2 ^ 52 + k)) = k * 2 ^ s := by
  rw [f64InfBits] at hbits
  rw [f64Mag, f64Exp_f64OfBits neg (by omega), f64Frac_f64OfBits]
  obtain hsub | hnorm | hcarry : k < 2 ^ 52 ∨ (2 ^ 52 ≤ k ∧ k < 2 ^ 53) ∨ k = 2 ^ 53 := by omega
  · obtain rfl : s = 0 := by omega
    have hexp : (0 * 2 ^ 52 + k) / 2 ^ 52 = 0 := by omega
    have hfrac : (0 * 2 ^ 52 + k) % 2 ^ 52 = k := by omega
    rw [hexp, hfrac, f64Magnitude, if_pos rfl, pow_zero, mul_one]
  · have hexp : (s * 2 ^ 52 + k) / 2 ^ 52 = s + 1 := by omega
    have hfrac : 2 ^ 52 + (s * 2 ^ 52 + k) % 2 ^ 52 = k := by omega
    rw [hexp, f64Magnitude, if_neg s.succ_ne_zero, hfrac, Nat.add_sub_cancel]
  · have hexp : (s * 2 ^ 52 + k) / 2 ^ 52 = s + 1 + 1 := by omega
    have hfrac : (s * 2 ^ 52 + k) % 2 ^ 52 = 0 := by omega
    rw [hexp, hfrac, f64Magnitude, if_neg (s + 1).succ_ne_zero, Nat.add_sub_cancel, hcarry, Nat.add_zero, pow_succ 2 s,
      pow_succ 2 52, mul_comm (2 ^ s) 2, mul_assoc]

/-- An exact quotient needs no rounding. -/
theorem divNearestEven_mul_right (q : Nat) {d : Nat} (hd : 0 < d) : divNearestEven (q * d) d = q := by
  have hnoTie : ¬ (2 * 0 > d ∨ (2 * 0 = d ∧ q % 2 = 1)) := by omega
  simp only [divNearestEven, Nat.mul_mod_left, Nat.mul_div_cancel _ hd, if_neg hnoTie]

/-- A magnitude that is a whole number of units of its own last place has a significand of 53 bits, with the leading bit
set unless the unit is the smallest. -/
theorem significand_bounds {k s : Nat} (hs : (k * 2 ^ s).log2 - 52 = s) : k < 2 ^ 53 ∧ (s = 0 ∨ 2 ^ 52 ≤ k) := by
  have hpos : 0 < 2 ^ s := Nat.two_pow_pos s
  constructor
  · have hlt : k * 2 ^ s < 2 ^ (53 + s) :=
      Nat.lt_log2_self.trans_le (Nat.pow_le_pow_right two_pos (by omega))
    rw [pow_add] at hlt
    exact Nat.lt_of_mul_lt_mul_right hlt
  · refine s.eq_zero_or_pos.imp_right fun hs0 => ?_
    have hm : k * 2 ^ s ≠ 0 := fun h0 => by rw [h0, Nat.log2_zero] at hs; omega
    have hle : 2 ^ (52 + s) ≤ k * 2 ^ s := (Nat.le_log2 hm).mp (by omega)
    rw [pow_add] at hle
    exact Nat.le_of_mul_le_mul_right hle hpos

/-- Rounding is the identity on a representable quotient: where `num / den` is exactly `m` units, and `m` is a whole
number of units of its last place in the exponent range, the nearest value is `m`. -/
theorem f64OfBits_nearestBits_exact (neg : Bool) {num den m : Nat} (hden : 0 < den) (hexact : num * f64One = m * den)
    (hdvd : 2 ^ (m.log2 - 52) ∣ m) (hrange : m.log2 - 52 ≤ 2045) :
    f64Finite (f64OfBits neg (f64NearestBits num den)) = true ∧
      f64Mag (f64OfBits neg (f64NearestBits num den)) = m := by
  obtain ⟨s, hs⟩ : ∃ s, m.log2 - 52 = s := ⟨_, rfl⟩
  obtain ⟨k, hk⟩ : ∃ k, m = k * 2 ^ s := by rw [← hs]; exact exists_eq_mul_left_of_dvd hdvd
  obtain ⟨hk53, hnormal⟩ := significand_bounds (hk ▸ hs)
  have hfits : s * 2 ^ 52 + k < f64InfBits := by rw [f64InfBits]; omega
  have hround : divNearestEven (num * f64One) (den * 2 ^ s) = k := by
    rw [hexact, hk, mul_assoc, mul_comm (2 ^ s)]
    exact divNearestEven_mul_right k (Nat.mul_pos hden (Nat.two_pow_pos s))
  have hbits : f64NearestBits num den = s * 2 ^ 52 + k := by
    rw [f64NearestBits, hexact, Nat.mul_div_cancel _ hden, hs, ← hexact, hround, min_eq_left hfits.le]
  rw [hbits]
  exact ⟨f64Finite_f64OfBits neg hfits, (f64Mag_f64OfBits_shifted neg hk53.le hnormal hfits).trans hk.symm⟩

end Sys2Proof.Machine
end

section
/-! `real(n)` (00_scope.md R13). -/

namespace Sys2Proof.Machine

/-- The last place of an integer below 2^53 weighs at most 1. -/
theorem lastPlace_of_integer_le {n e : Nat} (hn : n < 2 ^ 53) : (n * 2 ^ e).log2 - 52 ≤ e := by
  obtain rfl | hpos := n.eq_zero_or_pos
  · simp
  · have hlt : n * 2 ^ e < 2 ^ (53 + e) := by
      rw [pow_add]
      exact Nat.mul_lt_mul_of_pos_right hn (Nat.two_pow_pos e)
    have hlog := (Nat.log2_lt (Nat.mul_pos hpos (Nat.two_pow_pos e)).ne').mpr hlt
    omega

/-- An integer of at most 53 bits is a binary64 value. -/
theorem f64OfInt_exact {n : Int} (hn : n.natAbs < 2 ^ 53) :
    f64Finite (f64OfInt n) = true ∧ f64Mag (f64OfInt n) = n.natAbs * f64One := by
  have hplace : (n.natAbs * f64One).log2 - 52 ≤ 1074 := lastPlace_of_integer_le hn
  refine f64OfBits_nearestBits_exact (decide (n < 0)) one_pos (mul_one _).symm ?_ (hplace.trans (by decide))
  have hdvd : 2 ^ ((n.natAbs * f64One).log2 - 52) ∣ f64One := pow_dvd_pow 2 hplace
  exact hdvd.mul_left _

@[simp] theorem f64Sign_f64OfInt (n : Int) : f64Sign (f64OfInt n) = decide (n < 0) := f64Sign_f64OfBits _ _

/-- Settles O38: an int16 is far below 2^53 in magnitude. -/
theorem realIsExact : Obligations.RealIsExact := by
  intro n hlo hhi
  obtain ⟨hfinite, hmag⟩ := f64OfInt_exact (n := n) (by omega)
  exact ⟨hfinite, hmag, f64Sign_f64OfInt n⟩

end Sys2Proof.Machine
end

section
/-! What one turn can do. A step takes the schedule's first turn and runs what that turn fetches; a property that the
turn, the host's attaching, hardware reset and every operation keep is kept by every step (10_state.md R38, log 1). -/

namespace Sys2Proof.Machine

/-- The machine with its next turn taken off the schedule. -/
def State.takeTurn (s : State) : State := { s with schedule := s.schedule.tail }

/-- What a turn, once taken, fetches. -/
def fetchTurn : Turn → State → Fetched
  | .sequencer, s => fetchSequencer s
  | .transaction ht, s => .run (decodeHost ht) s
  | .attach a, s => .settle { s with attached := a }
  | .reset, s => .settle s.hardReset

theorem State.takeTurn_of_empty {s : State} (h : s.schedule = []) : s.takeTurn = s := by
  rw [State.takeTurn, h, List.tail_nil, ← h]

/-- The turn fetched is the schedule's first, or the sequencer's where the schedule is empty. -/
theorem fetch_eq_fetchTurn (s : State) : fetch s = fetchTurn (s.schedule.headD .sequencer) s.takeTurn := by
  unfold fetch
  split
  next h => rw [State.takeTurn_of_empty h, h, List.headD_nil, fetchTurn]
  all_goals simp [State.takeTurn, fetchTurn, *]

/-- The sequencer's operation runs on the state it was selected in. -/
theorem fetchSequencer_run {s u : State} {i : Instr} (h : fetchSequencer s = .run i u) : u = s := by
  unfold fetchSequencer at h
  split at h <;> cases h
  rfl

/-- A quiescent sequencer leaves the state alone. -/
theorem fetchSequencer_settle {s u : State} (h : fetchSequencer s = .settle u) : u = s := by
  unfold fetchSequencer at h
  split at h <;> cases h
  rfl

theorem fetchTurn_run {turn : Turn} {s u : State} {i : Instr} (h : fetchTurn turn s = .run i u) : u = s := by
  cases turn with
  | sequencer => exact fetchSequencer_run h
  | transaction ht => cases h; rfl
  | attach a => cases h
  | reset => cases h

theorem fetchTurn_settle {turn : Turn} {s u : State} (h : fetchTurn turn s = .settle u) :
    u = s ∨ (∃ a, u = { s with attached := a }) ∨ u = s.hardReset := by
  cases turn with
  | sequencer => exact .inl (fetchSequencer_settle h)
  | transaction ht => cases h
  | attach a => cases h; exact .inr (.inl ⟨a, rfl⟩)
  | reset => cases h; exact .inr (.inr rfl)

/-- The induction step of every invariant: what the turns and every operation keep, a step keeps. -/
theorem step_keeps {P : State → Prop} (hturn : ∀ s, P s → P s.takeTurn)
    (hattach : ∀ s a, P s → P { s with attached := a }) (hreset : ∀ s, P s → P s.hardReset)
    (hexec : ∀ i s t, exec i s = .next t → P s → P t) {s t : State} (hs : P s) (h : step s = .next t) : P t := by
  obtain ⟨i, u, hfetch, hrun⟩ | hfetch := step_next_cases s t h
  · rw [fetch_eq_fetchTurn] at hfetch
    obtain rfl := fetchTurn_run hfetch
    exact hexec i _ t hrun (hturn s hs)
  · rw [fetch_eq_fetchTurn] at hfetch
    obtain rfl | ⟨a, rfl⟩ | rfl := fetchTurn_settle hfetch
    · exact hturn s hs
    · exact hattach _ a (hturn s hs)
    · exact hreset _ (hturn s hs)

end Sys2Proof.Machine
end

section
/-! What an operation does to a state, said once as a relation: one constructor per operation and outcome, each with the
condition it needs and the full state it leaves. `exec_next_iff` ties it to `exec` (40_host_ops.md,
41_sequencer_header.md, 42_echo.md, 43_downmix.md). -/

namespace Sys2Proof.Machine

/-- The five forms of NOPW (40_host_ops.md R112). -/
def isNopw : Instr → Bool
  | .nopwCtrl | .nopwStatus | .nopwInPos | .nopwOutLen | .nopwReserved => true
  | _ => false

/-- The operations ignored outside IDLE: START and the configuration writes (40_host_ops.md R100). -/
def onlyInIdle : Instr → Bool
  | .start | .setmode _ | .setdelay _ | .setvscale _ => true
  | _ => false

/-- The first cause CHECK.ECHO finds to reject a configuration (41_sequencer_header.md R121). -/
def State.checkCause (s : State) : Option Err :=
  if s.delay.toInt ≤ 0 then some .errDelay
  else if s.gain.accepts s.vscale = false then some .errVscale
  else if (s.delayMax : Int) < s.delay.toInt then some .errAlloc
  else none

theorem checkEcho_of_cause {s : State} {c : Err} (h : s.checkCause = some c) : checkEcho s = s.takeFault c := by
  unfold State.checkCause at h
  unfold checkEcho
  split_ifs at h ⊢ <;> cases h <;> rfl

theorem checkEcho_of_no_cause {s : State} (h : s.checkCause = none) : checkEcho s = { s with phase := .hdr } := by
  unfold State.checkCause at h
  unfold checkEcho
  split_ifs at h ⊢
  rfl

theorem State.checkCause_eq_none_iff (s : State) : s.checkCause = none ↔ s.echoConfigLegal := by
  unfold State.checkCause State.echoConfigLegal
  split_ifs <;> simp_all

/-- A rejection gives one of the three codes of CHECK (60_exceptions.md R201). -/
theorem State.checkCause_mem {s : State} {c : Err} (h : s.checkCause = some c) :
    c = .errDelay ∨ c = .errVscale ∨ c = .errAlloc := by
  unfold State.checkCause at h
  split_ifs at h <;> cases h <;> simp

theorem echoEos_eq (s : State) :
    echoEos s = { s with inPos := s.inPos + (if s.inAvail = 1 then 1 else 0), phase := .echoFlush } := by
  unfold echoEos
  split <;> rfl

/-- The operation `i`, executed in `s`, leaves the state `t`. -/
inductive Executes (s : State) : Instr → State → Prop where
  | rdreg (r : HostReg) : Executes s (.rdreg r) { s with hostRead := some (s.readReg r) }
  | nopw {i : Instr} (hi : isNopw i = true) : Executes s i s
  | ignored {i : Instr} (hi : onlyInIdle i = true) (hp : s.phase ≠ .idle) : Executes s i s
  | start (hp : s.phase = .idle) : Executes s .start s.beginRun
  | abort : Executes s .abort s.toIdle
  | setmode (m : Mode) (hp : s.phase = .idle) : Executes s (.setmode m) { s with mode := m }
  | setdelay (n : Int) (hp : s.phase = .idle) : Executes s (.setdelay n) { s with delay := BitVec.ofInt 32 n }
  | setvscale (v : Word64) (hp : s.phase = .idle) : Executes s (.setvscale v) { s with vscale := v }
  | echoRejected (c : Err) (hp : s.phase = .check) (hm : s.mode = .echo) (hc : s.checkCause = some c) :
      Executes s .checkEcho (s.takeFault c)
  | echoAccepted (hp : s.phase = .check) (hm : s.mode = .echo) (hc : s.checkCause = none) :
      Executes s .checkEcho { s with phase := .hdr }
  | dmxAccepted (hp : s.phase = .check) (hm : s.mode = .downmix) : Executes s .checkDmx { s with phase := .hdr }
  | headerShort (hp : s.phase = .hdr) (hin : s.inAvail < hdrSize) : Executes s .hdrCopy (s.takeFault .errHdrRead)
  | headerCopied (hp : s.phase = .hdr) (hin : hdrSize ≤ s.inAvail) (ha : s.sinkAnswer = .ok) :
      Executes s .hdrCopy
        { (s.inConsume hdrSize).sinkAsked with out := s.out ++ s.inBytes hdrSize, phase := firstPhaseOf s.mode }
  | headerTorn (k : Nat) (hp : s.phase = .hdr) (hin : hdrSize ≤ s.inAvail) (ha : s.sinkAnswer = .fail k) :
      Executes s .hdrCopy
        { (s.inConsume hdrSize).sinkAsked with
          out := s.out ++ writtenOnFail k (s.inBytes hdrSize), err := .errHdrWrite, phase := .fault }
  | lineCleared (hp : s.phase = .echoInit) :
      Executes s .echoInit
        { s with dl := Memory.zeroBelow s.delayNat s.dl, idx := 0, flushCnt := 0, phase := .echoRun }
  | mixed (hp : s.phase = .echoRun) (hx : s.exh = false) (hl : s.idxInLine = true) (ha : s.sinkAnswer = .ok) :
      Executes s .echoMix
        { (s.inConsume 2).sinkAsked with
          out := s.out ++ sampleBytes s.mixedSample
          dl := Memory.write s.dl s.idx s.nextSample
          idx := s.nextIdx }
  | mixTorn (k : Nat) (hp : s.phase = .echoRun) (hx : s.exh = false) (hl : s.idxInLine = true)
      (ha : s.sinkAnswer = .fail k) :
      Executes s .echoMix
        { (s.inConsume 2).sinkAsked with
          out := s.out ++ writtenOnFail k (sampleBytes s.mixedSample), err := .errWrite, phase := .fault }
  | echoEnded (hp : s.phase = .echoRun) (hx : s.exh = true) :
      Executes s .echoEos { s with inPos := s.inPos + (if s.inAvail = 1 then 1 else 0), phase := .echoFlush }
  | flushed (hp : s.phase = .echoFlush) (hx : s.exh = false) (hl : s.idxInLine = true) (ha : s.sinkAnswer = .ok) :
      Executes s .echoFlush
        { s.sinkAsked with
          out := s.out ++ sampleBytes (scale s.gain s.vscale s.echoSample)
          idx := s.nextIdx
          flushCnt := s.flushCnt + 1 }
  | flushTorn (k : Nat) (hp : s.phase = .echoFlush) (hx : s.exh = false) (hl : s.idxInLine = true)
      (ha : s.sinkAnswer = .fail k) :
      Executes s .echoFlush
        { s.sinkAsked with
          out := s.out ++ writtenOnFail k (sampleBytes (scale s.gain s.vscale s.echoSample))
          err := .errWrite
          phase := .fault }
  | flushEnded (hp : s.phase = .echoFlush) (hx : s.exh = true) : Executes s .echoFlushend { s with phase := .patch }
  | riffTorn (k : Nat) (hp : s.phase = .patch) (ho : hdrSize ≤ s.out.length) (ha : s.sinkAnswer = .fail k) :
      Executes s .hdrPatch
        { s.sinkAsked with
          out := overlay s.out riffOff (writtenOnFail k (sizeField (s.out.length - 8)))
          err := .errPatch
          phase := .fault }
  | dataTorn (k : Nat) (hp : s.phase = .patch) (ho : hdrSize ≤ s.out.length) (ha : s.sinkAnswer = .ok)
      (hb : s.sinkAsked.sinkAnswer = .fail k) :
      Executes s .hdrPatch
        { s.sinkAsked.sinkAsked with
          out := overlay (overlay s.out riffOff (sizeField (s.out.length - 8))) dataOff
            (writtenOnFail k (sizeField (s.out.length - hdrSize)))
          err := .errPatch
          phase := .fault }
  | patched (hp : s.phase = .patch) (ho : hdrSize ≤ s.out.length) (ha : s.sinkAnswer = .ok)
      (hb : s.sinkAsked.sinkAnswer = .ok) :
      Executes s .hdrPatch
        { s.sinkAsked.sinkAsked with
          out := overlay (overlay s.out riffOff (sizeField (s.out.length - 8))) dataOff
            (sizeField (s.out.length - hdrSize))
          phase := .done }
  | paired (hp : s.phase = .dmxRun) (hx : s.exh = false) (ha : s.sinkAnswer = .ok) :
      Executes s .dmxPair { (s.inConsume 4).sinkAsked with out := s.out ++ pairBytes s.pairSample }
  | pairTorn (k : Nat) (hp : s.phase = .dmxRun) (hx : s.exh = false) (ha : s.sinkAnswer = .fail k) :
      Executes s .dmxPair
        { (s.inConsume 4).sinkAsked with
          out := s.out ++ writtenOnFail k (pairBytes s.pairSample), err := .errWrite, phase := .fault }
  | dmxEnded (hp : s.phase = .dmxRun) (hx : s.exh = true) :
      Executes s .dmxEos { s with inPos := s.inPos + s.inAvail, phase := .done }

/-! ## Each operation that can end in more than one way -/

/-- A write that takes effect in IDLE and is ignored elsewhere. -/
theorem executes_inIdle {s : State} {i : Instr} {f : State → State} (hi : onlyInIdle i = true)
    (heff : s.phase = .idle → Executes s i (f s)) : Executes s i (s.inIdle f) := by
  by_cases hp : s.phase = .idle
  · rw [s.inIdle_idle f hp]; exact heff hp
  · rw [s.inIdle_busy f hp]; exact .ignored hi hp

theorem executes_checkEcho {s : State} (hp : s.phase = .check) (hm : s.mode = .echo) :
    Executes s .checkEcho (checkEcho s) := by
  rcases hc : s.checkCause with _ | c
  · rw [checkEcho_of_no_cause hc]; exact .echoAccepted hp hm hc
  · rw [checkEcho_of_cause hc]; exact .echoRejected c hp hm hc

theorem executes_hdrCopy {s : State} (hp : s.phase = .hdr) : Executes s .hdrCopy (hdrCopy s) := by
  unfold hdrCopy
  split
  next hin => exact .headerShort hp hin
  next hin =>
    rcases ha : s.sinkAnswer with _ | k
    · rw [State.outAppend_ok (s.inConsume _) _ _ _ ha]; exact .headerCopied hp (Nat.le_of_not_lt hin) ha
    · rw [State.outAppend_fail (s.inConsume _) _ _ _ k ha]; exact .headerTorn k hp (Nat.le_of_not_lt hin) ha

theorem executes_echoMix {s : State} (hp : s.phase = .echoRun) (hx : s.exh = false) (hl : s.idxInLine = true) :
    Executes s .echoMix (echoMix s) := by
  unfold echoMix
  rcases ha : s.sinkAnswer with _ | k
  · rw [State.outAppend_ok (s.inConsume _) _ _ _ ha]; exact .mixed hp hx hl ha
  · rw [State.outAppend_fail (s.inConsume _) _ _ _ k ha]; exact .mixTorn k hp hx hl ha

theorem executes_echoFlush {s : State} (hp : s.phase = .echoFlush) (hx : s.exh = false) (hl : s.idxInLine = true) :
    Executes s .echoFlush (echoFlush s) := by
  unfold echoFlush
  rcases ha : s.sinkAnswer with _ | k
  · rw [State.outAppend_ok _ _ _ _ ha]; exact .flushed hp hx hl ha
  · rw [State.outAppend_fail _ _ _ _ k ha]; exact .flushTorn k hp hx hl ha

theorem executes_hdrPatch {s : State} (hp : s.phase = .patch) (ho : hdrSize ≤ s.out.length) :
    Executes s .hdrPatch (hdrPatch s) := by
  unfold hdrPatch
  rcases ha : s.sinkAnswer with _ | k
  · rw [State.outPatch_ok _ _ _ _ _ ha]
    rcases hb : s.sinkAsked.sinkAnswer with _ | k
    · rw [State.outPatch_ok]; exacts [.patched hp ho ha hb, hb]
    · rw [State.outPatch_fail (k := k)]; exacts [.dataTorn k hp ho ha hb, hb]
  · rw [State.outPatch_fail _ _ _ _ _ k ha]; exact .riffTorn k hp ho ha

theorem executes_dmxPair {s : State} (hp : s.phase = .dmxRun) (hx : s.exh = false) :
    Executes s .dmxPair (dmxPair s) := by
  unfold dmxPair
  rcases ha : s.sinkAnswer with _ | k
  · rw [State.outAppend_ok (s.inConsume _) _ _ _ ha]; exact .paired hp hx ha
  · rw [State.outAppend_fail (s.inConsume _) _ _ _ k ha]; exact .pairTorn k hp hx ha

/-! ## The relation is `exec` -/

/-- What an enabled operation that can also stop the machine needs to answer a next state. -/
theorem whenEnabled_guarded_next {i : Instr} {s t u : State} {stop : Prop} [Decidable stop] {f : Fault}
    (h : whenEnabled i s (if stop then .fault f else .next u) = .next t) : s.enables i = true ∧ ¬ stop ∧ u = t := by
  obtain ⟨he, hn⟩ := whenEnabled_next i s t _ h
  split at hn
  next => cases hn
  next hstop => cases hn; exact ⟨he, hstop, rfl⟩

theorem executes_of_exec {s t : State} {i : Instr} (h : exec i s = .next t) : Executes s i t := by
  cases i with
  | rdreg r => cases h; exact .rdreg r
  | nopwCtrl | nopwStatus | nopwInPos | nopwOutLen | nopwReserved => cases h; exact .nopw rfl
  | start => cases h; exact executes_inIdle rfl .start
  | abort => cases h; exact .abort
  | setmode m => cases h; exact executes_inIdle rfl (.setmode m)
  | setdelay n => cases h; exact executes_inIdle rfl (.setdelay n)
  | setvscale v => cases h; exact executes_inIdle rfl (.setvscale v)
  | checkEcho =>
    obtain ⟨he, hn⟩ := whenEnabled_next .checkEcho s t _ h
    obtain ⟨hp, hm⟩ : s.phase = .check ∧ s.mode = .echo := by simpa [State.enables] using he
    cases hn
    exact executes_checkEcho hp hm
  | checkDmx =>
    obtain ⟨he, hn⟩ := whenEnabled_next .checkDmx s t _ h
    obtain ⟨hp, hm⟩ : s.phase = .check ∧ s.mode = .downmix := by simpa [State.enables] using he
    cases hn
    exact .dmxAccepted hp hm
  | hdrCopy =>
    obtain ⟨he, hn⟩ := whenEnabled_next .hdrCopy s t _ h
    cases hn
    exact executes_hdrCopy (of_decide_eq_true he)
  | echoInit =>
    obtain ⟨he, hn⟩ := whenEnabled_next .echoInit s t _ h
    cases hn
    exact .lineCleared (of_decide_eq_true he)
  | echoMix =>
    obtain ⟨he, hl, rfl⟩ := whenEnabled_guarded_next h
    obtain ⟨hp, hx⟩ : s.phase = .echoRun ∧ s.exh = false := by simpa [State.enables] using he
    exact executes_echoMix hp hx (Bool.eq_true_of_not_eq_false hl)
  | echoEos =>
    obtain ⟨he, hn⟩ := whenEnabled_next .echoEos s t _ h
    obtain ⟨hp, hx⟩ : s.phase = .echoRun ∧ s.exh = true := by simpa [State.enables] using he
    cases hn
    rw [echoEos_eq]
    exact .echoEnded hp hx
  | echoFlush =>
    obtain ⟨he, hl, rfl⟩ := whenEnabled_guarded_next h
    obtain ⟨hp, hx⟩ : s.phase = .echoFlush ∧ s.exh = false := by simpa [State.enables] using he
    exact executes_echoFlush hp hx (Bool.eq_true_of_not_eq_false hl)
  | echoFlushend =>
    obtain ⟨he, hn⟩ := whenEnabled_next .echoFlushend s t _ h
    obtain ⟨hp, hx⟩ : s.phase = .echoFlush ∧ s.exh = true := by simpa [State.enables] using he
    cases hn
    exact .flushEnded hp hx
  | hdrPatch =>
    obtain ⟨he, ho, rfl⟩ := whenEnabled_guarded_next h
    exact executes_hdrPatch (of_decide_eq_true he) (Nat.le_of_not_lt ho)
  | dmxPair =>
    obtain ⟨he, hn⟩ := whenEnabled_next .dmxPair s t _ h
    obtain ⟨hp, hx⟩ : s.phase = .dmxRun ∧ s.exh = false := by simpa [State.enables] using he
    cases hn
    exact executes_dmxPair hp hx
  | dmxEos =>
    obtain ⟨he, hn⟩ := whenEnabled_next .dmxEos s t _ h
    obtain ⟨hp, hx⟩ : s.phase = .dmxRun ∧ s.exh = true := by simpa [State.enables] using he
    cases hn
    exact .dmxEnded hp hx

theorem exec_of_executes {s t : State} {i : Instr} (h : Executes s i t) : exec i s = .next t := by
  cases h with
  | rdreg r => rfl
  | nopw hi => cases i <;> simp [isNopw] at hi <;> rfl
  | ignored hi hp =>
    cases i <;> simp [onlyInIdle] at hi <;> exact congrArg Host.Outcome.next (s.inIdle_busy _ hp)
  | start hp | setmode m hp | setdelay n hp | setvscale v hp => exact congrArg Host.Outcome.next (s.inIdle_idle _ hp)
  | abort => rfl
  | echoRejected c hp hm hc =>
    simp [exec, execCheckEcho, whenEnabled, State.enables, hp, hm, checkEcho_of_cause hc]
  | echoAccepted hp hm hc => simp [exec, execCheckEcho, whenEnabled, State.enables, hp, hm, checkEcho_of_no_cause hc]
  | dmxAccepted hp hm => simp [exec, execCheckDmx, whenEnabled, State.enables, hp, hm]
  | headerShort hp hin => simp [exec, execHdrCopy, whenEnabled, State.enables, hp, hdrCopy, hin]
  | headerCopied hp hin ha =>
    simp [exec, execHdrCopy, whenEnabled, State.enables, hp, hdrCopy, Nat.not_lt.mpr hin,
      State.outAppend_ok (s.inConsume _) _ _ _ ha]
  | headerTorn k hp hin ha =>
    simp [exec, execHdrCopy, whenEnabled, State.enables, hp, hdrCopy, Nat.not_lt.mpr hin,
      State.outAppend_fail (s.inConsume _) _ _ _ k ha]
  | lineCleared hp => simp [exec, execEchoInit, whenEnabled, State.enables, hp, echoInit]
  | mixed hp hx hl ha =>
    simp [exec, execEchoMix, whenEnabled, State.enables, hp, hx, hl, echoMix,
      State.outAppend_ok (s.inConsume _) _ _ _ ha, State.nextIdx, State.delayNat]
  | mixTorn k hp hx hl ha =>
    simp [exec, execEchoMix, whenEnabled, State.enables, hp, hx, hl, echoMix,
      State.outAppend_fail (s.inConsume _) _ _ _ k ha]
  | echoEnded hp hx => simp [exec, execEchoEos, whenEnabled, State.enables, hp, hx, echoEos_eq]
  | flushed hp hx hl ha =>
    simp [exec, execEchoFlush, whenEnabled, State.enables, hp, hx, hl, echoFlush, State.outAppend_ok _ _ _ _ ha,
      State.nextIdx, State.delayNat]
  | flushTorn k hp hx hl ha =>
    simp [exec, execEchoFlush, whenEnabled, State.enables, hp, hx, hl, echoFlush, State.outAppend_fail _ _ _ _ k ha]
  | flushEnded hp hx => simp [exec, execEchoFlushend, whenEnabled, State.enables, hp, hx]
  | riffTorn k hp ho ha =>
    simp [exec, execHdrPatch, whenEnabled, State.enables, hp, Nat.not_lt.mpr ho, hdrPatch,
      State.outPatch_fail _ _ _ _ _ k ha]
  | dataTorn k hp ho ha hb =>
    have heff : hdrPatch s = _ := (State.outPatch_ok _ _ _ _ _ ha).trans (State.outPatch_fail _ _ _ _ _ k hb)
    simp [exec, execHdrPatch, whenEnabled, State.enables, hp, Nat.not_lt.mpr ho, heff]
  | patched hp ho ha hb =>
    have heff : hdrPatch s = _ := (State.outPatch_ok _ _ _ _ _ ha).trans (State.outPatch_ok _ _ _ _ _ hb)
    simp [exec, execHdrPatch, whenEnabled, State.enables, hp, Nat.not_lt.mpr ho, heff]
  | paired hp hx ha =>
    simp [exec, execDmxPair, whenEnabled, State.enables, hp, hx, dmxPair, pairBytes,
      State.outAppend_ok (s.inConsume _) _ _ _ ha]
  | pairTorn k hp hx ha =>
    simp [exec, execDmxPair, whenEnabled, State.enables, hp, hx, dmxPair, pairBytes,
      State.outAppend_fail (s.inConsume _) _ _ _ k ha]
  | dmxEnded hp hx => simp [exec, execDmxEos, whenEnabled, State.enables, hp, hx, dmxEos, State.inConsume]

/-- The relation says what `exec` answers, no less and no more. -/
theorem exec_next_iff {s t : State} {i : Instr} : exec i s = .next t ↔ Executes s i t :=
  ⟨executes_of_exec, exec_of_executes⟩

end Sys2Proof.Machine
end

section
/-! Two short invariants: ERR is set exactly in FAULT (10_state.md R23), and what reset writes (R39,
70_reset_and_hazards.md R230). -/

namespace Sys2Proof.Machine

/-! ## ERR and FAULT -/

theorem Executes.errInFault {s t : State} {i : Instr} (h : Executes s i t)
    (hs : s.err ≠ .none ↔ s.phase = .fault) : t.err ≠ .none ↔ t.phase = .fault := by
  have hmoved {q : Phase} (hp : s.phase ≠ .fault) (hq : q ≠ .fault) : s.err ≠ .none ↔ q = .fault := by
    simp only [hq, mt hs.mp hp]
  cases h with
  | start | abort => simp
  | echoRejected c hp hm hc => obtain rfl | rfl | rfl := State.checkCause_mem hc <;> simp
  | headerShort | headerTorn | mixTorn | flushTorn | riffTorn | dataTorn | pairTorn => simp
  | echoAccepted hp | dmxAccepted hp | lineCleared hp | echoEnded hp | flushEnded hp | patched hp | dmxEnded hp =>
    exact hmoved (by simp [hp]) (by simp)
  | headerCopied hp => exact hmoved (by simp [hp]) (by cases s.mode <;> simp [firstPhaseOf])
  | _ => exact hs

/-- Settles O49: an operation that sets ERR enters FAULT, and FAULT is left only with ERR cleared. -/
theorem errIsSetExactlyInFault : Obligations.ErrIsSetExactlyInFault := by
  intro s t hs h
  exact step_keeps (P := fun s => s.err ≠ .none ↔ s.phase = .fault) (fun _ hs => hs) (fun _ _ hs => hs)
    (fun s _ => by simp) (fun i s t hexec hs => (exec_next_iff.mp hexec).errInFault hs) hs h

/-! ## Reset -/

/-- A hardware-reset turn resets the machine whose turn was taken (70_reset_and_hazards.md R230). -/
theorem step_reset {s : State} {rest : List Turn} (h : s.schedule = .reset :: rest) :
    step s = .next { s with schedule := rest }.hardReset := by
  simp [step, fetch, h]

/-- Settles O59: the reset state and the fields hardware reset writes, read off. -/
theorem resetValues : Obligations.ResetValues := by
  refine ⟨⟨rfl, rfl, rfl, rfl, rfl, rfl, rfl, rfl⟩, fun s rest hsched => ?_⟩
  exact ⟨_, step_reset hsched, rfl, rfl, rfl, rfl, rfl, rfl, rfl, rfl⟩

end Sys2Proof.Machine
end

section
/-! The invariant of every reachable state. Its clauses are sorted into those about every phase and those about the
state's own phase; each operation keeps the first and leads to the second (10_state.md R22 to R32). -/

namespace Sys2Proof.Machine

/-! ## The invariant, sorted by phase -/

/-- An echo run past its header: what the four echo phases share of `State.Inv`. -/
def State.echoUnderWay (s : State) : Prop :=
  s.mode = .echo ∧ s.echoConfigLegal ∧ hdrSize ≤ s.inPos ∧ hdrSize ≤ s.out.length

/-- The clauses of `State.Inv` that speak of every phase. -/
structure State.BaseInv (s : State) : Prop where
  dlCanonical : Memory.wf s.dl = true
  capacity : 1 ≤ s.delayMax ∧ s.delayMax ≤ 2147483647
  errInFault : s.err ≠ .none ↔ s.phase = .fault
  inPosBound : s.inPos ≤ s.input.length

/-- The other clauses of `State.Inv`, sorted by the phase they speak of. -/
def State.phaseInv (s : State) : Prop :=
  match s.phase with
  | .idle | .done | .fault => True
  | .check => s.inPos = 0 ∧ s.out = []
  | .hdr => (s.inPos = 0 ∧ s.out = []) ∧ (s.mode = .echo → s.echoConfigLegal)
  | .echoInit | .patch => s.echoUnderWay
  | .echoRun => s.echoUnderWay ∧ s.idx < s.delayNat ∧ s.flushCnt = 0
  | .echoFlush => s.echoUnderWay ∧ s.idx < s.delayNat ∧ s.flushCnt ≤ s.delayNat
  | .dmxRun => s.mode = .downmix ∧ hdrSize ≤ s.inPos ∧ hdrSize ≤ s.out.length

theorem State.Inv.base {s : State} (h : s.Inv) : s.BaseInv :=
  ⟨h.dlCanonical, h.capacity, h.errInFault, h.inPosBound⟩

theorem State.Inv.echoUnderWay {s : State} (h : s.Inv) (hp : s.phase.echoOnly = true) : s.echoUnderWay :=
  ⟨h.echoMode hp, h.echoLegal (.inl hp), h.headerOut (.inl hp)⟩

theorem State.Inv.phaseInv {s : State} (h : s.Inv) : s.phaseInv := by
  cases hp : s.phase <;> simp only [State.phaseInv, hp]
  case check => exact h.fresh (.inl hp)
  case hdr => exact ⟨h.fresh (.inr hp), fun hm => h.echoLegal (.inr ⟨hp, hm⟩)⟩
  case echoInit | patch => exact h.echoUnderWay (by simp [hp, Phase.echoOnly])
  case echoRun =>
    exact ⟨h.echoUnderWay (by simp [hp, Phase.echoOnly]), (h.cursor (.inl hp)).1, h.noFlushYet hp⟩
  case echoFlush => exact ⟨h.echoUnderWay (by simp [hp, Phase.echoOnly]), h.cursor (.inr hp)⟩
  case dmxRun => exact ⟨h.downmixMode hp, h.headerOut (.inr hp)⟩

theorem State.phaseInv.echoUnderWay {s : State} (h : s.phaseInv) (he : s.phase.echoOnly = true) : s.echoUnderWay := by
  cases hp : s.phase <;> simp only [State.phaseInv, hp] at h <;> simp only [hp, Phase.echoOnly] at he
  case echoInit | patch => exact h
  case echoRun | echoFlush => exact h.1
  all_goals cases he

/-- The invariant from its two halves: a clause about another phase than the state's holds emptily. -/
theorem State.BaseInv.inv {s : State} (hb : s.BaseInv) (h : s.phaseInv) : s.Inv where
  dlCanonical := hb.dlCanonical
  capacity := hb.capacity
  errInFault := hb.errInFault
  inPosBound := hb.inPosBound
  echoMode he := (h.echoUnderWay he).1
  downmixMode hp := by
    simp only [State.phaseInv, hp] at h
    exact h.1
  echoLegal := by
    rintro (he | ⟨hp, hm⟩)
    · obtain ⟨-, hlegal, -⟩ := h.echoUnderWay he
      exact hlegal
    · simp only [State.phaseInv, hp] at h
      exact h.2 hm
  fresh := by
    rintro (hp | hp) <;> simp only [State.phaseInv, hp] at h
    · exact h
    · exact h.1
  headerOut := by
    rintro (he | hp)
    · obtain ⟨-, -, hheader⟩ := h.echoUnderWay he
      exact hheader
    · simp only [State.phaseInv, hp] at h
      exact h.2
  cursor := by
    rintro (hp | hp) <;> simp only [State.phaseInv, hp] at h
    · obtain ⟨-, hidx, hzero⟩ := h
      exact ⟨hidx, by omega⟩
    · exact h.2
  noFlushYet hp := by
    simp only [State.phaseInv, hp] at h
    obtain ⟨-, -, hzero⟩ := h
    exact hzero

/-! ## A legal configuration's DELAY, and lengths of what is written -/

theorem State.delayNat_cast {s : State} (h : s.echoConfigLegal) : (s.delayNat : Int) = s.delay.toInt :=
  Int.toNat_of_nonneg h.1.le

theorem State.delayNat_pos {s : State} (h : s.echoConfigLegal) : 0 < s.delayNat := by
  have := State.delayNat_cast h
  have := h.1
  omega

theorem State.nextIdx_lt {s : State} (h : s.echoConfigLegal) : s.nextIdx < s.delayNat :=
  Nat.mod_lt _ (State.delayNat_pos h)

@[simp] theorem sampleBytes_length (v : Int) : (sampleBytes v).length = 2 := rfl
@[simp] theorem pairBytes_length (d : Int) : (pairBytes d).length = 4 := rfl
@[simp] theorem sizeField_length (n : Nat) : (sizeField n).length = 4 := rfl

/-! ## EXH (30_encoding.md R90) -/

theorem State.exh_echoRun {s : State} (hp : s.phase = .echoRun) : s.exh = decide (s.inAvail < 2) := by
  simp only [State.exh, hp]

theorem State.exh_echoFlush {s : State} (hp : s.phase = .echoFlush) :
    s.exh = decide (s.delay.toInt ≤ (s.flushCnt : Int)) := by
  simp only [State.exh, hp]

theorem State.exh_dmxRun {s : State} (hp : s.phase = .dmxRun) : s.exh = decide (s.inAvail < 4) := by
  simp only [State.exh, hp]

/-- In the flush with no end in sight, the count is below DELAY. -/
theorem State.flushCnt_lt {s : State} (hp : s.phase = .echoFlush) (hx : s.exh = false) : s.flushCnt < s.delayNat := by
  rw [State.exh_echoFlush hp, decide_eq_false_iff_not] at hx
  rw [State.delayNat]
  omega

/-- A read that IN can serve stays inside IN (20_memory.md R53). -/
theorem State.inPos_add_le {s : State} {n : Nat} (hs : s.inPos ≤ s.input.length) (h : n ≤ s.inAvail) :
    s.inPos + n ≤ s.input.length := by
  rw [State.inAvail] at h
  omega

/-! ## Each operation keeps the clauses that speak of every phase -/

theorem Executes.dlCanonical {s t : State} {i : Instr} (h : Executes s i t) (hs : Memory.wf s.dl = true) :
    Memory.wf t.dl = true := by
  cases h with
  | lineCleared => exact Memory.wf_zeroBelow _ hs _
  | mixed => exact Memory.wf_write _ hs _ _
  | _ => exact hs

theorem Executes.delayMax {s t : State} {i : Instr} (h : Executes s i t) : t.delayMax = s.delayMax := by
  cases h <;> rfl

theorem Executes.inPosBound {s t : State} {i : Instr} (h : Executes s i t) (hs : s.inPos ≤ s.input.length) :
    t.inPos ≤ t.input.length := by
  cases h with
  | start => exact Nat.zero_le _
  | headerCopied _ hin | headerTorn _ _ hin => exact State.inPos_add_le hs hin
  | mixed hp hx | mixTorn _ hp hx =>
    rw [State.exh_echoRun hp, decide_eq_false_iff_not] at hx
    exact State.inPos_add_le hs (Nat.le_of_not_lt hx)
  | paired hp hx | pairTorn _ hp hx =>
    rw [State.exh_dmxRun hp, decide_eq_false_iff_not] at hx
    exact State.inPos_add_le hs (Nat.le_of_not_lt hx)
  | echoEnded => exact State.inPos_add_le hs (by split <;> omega)
  | dmxEnded => exact State.inPos_add_le hs le_rfl
  | _ => exact hs

theorem Executes.base {s t : State} {i : Instr} (h : Executes s i t) (hs : s.BaseInv) : t.BaseInv :=
  ⟨h.dlCanonical hs.dlCanonical, by rw [h.delayMax]; exact hs.capacity, h.errInFault hs.errInFault,
    h.inPosBound hs.inPosBound⟩

/-! ## Each operation leads to the clauses of the phase it ends in -/

/-- Reading and writing more keeps the header read and written. -/
theorem header_grows {s : State} (h : hdrSize ≤ s.inPos ∧ hdrSize ≤ s.out.length) (n : Nat) (bs : List Byte) :
    hdrSize ≤ s.inPos + n ∧ hdrSize ≤ (s.out ++ bs).length := by
  obtain ⟨hin, hout⟩ := h
  rw [List.length_append]
  omega

theorem Executes.phaseInv {s t : State} {i : Instr} (h : Executes s i t) (hs : s.Inv) : t.phaseInv := by
  cases h with
  | rdreg | nopw | ignored => exact hs.phaseInv
  | setmode _ hp | setdelay _ hp | setvscale _ hp => simp only [State.phaseInv, hp]
  | abort | echoRejected | headerShort | headerTorn | mixTorn | flushTorn | riffTorn | dataTorn | pairTorn | patched
    | dmxEnded => trivial
  | start => exact ⟨rfl, rfl⟩
  | echoAccepted hp hm hc => exact ⟨hs.fresh (.inl hp), fun _ => s.checkCause_eq_none_iff.mp hc⟩
  | dmxAccepted hp hm => exact ⟨hs.fresh (.inl hp), fun he => nomatch hm.symm.trans he⟩
  | headerCopied hp hin =>
    have hlen : hdrSize ≤ (s.out ++ s.inBytes hdrSize).length := by
      rw [State.inAvail] at hin
      simp only [State.inBytes, List.length_append, List.length_take, List.length_drop]
      omega
    rcases hm : s.mode with _ | _ <;> simp only [State.phaseInv, firstPhaseOf]
    · exact ⟨hm, hs.echoLegal (.inr ⟨hp, hm⟩), Nat.le_add_left .., hlen⟩
    · exact ⟨hm, Nat.le_add_left .., hlen⟩
  | lineCleared hp =>
    obtain ⟨hm, hlegal, hheader⟩ := hs.echoUnderWay (by rw [hp]; rfl)
    exact ⟨⟨hm, hlegal, hheader⟩, State.delayNat_pos hlegal, rfl⟩
  | mixed hp =>
    obtain ⟨hm, hlegal, hheader⟩ := hs.echoUnderWay (by rw [hp]; rfl)
    simp only [State.phaseInv, hp, State.inConsume_phase, State.sinkAsked_phase]
    exact ⟨⟨hm, hlegal, header_grows hheader _ _⟩, State.nextIdx_lt hlegal, hs.noFlushYet hp⟩
  | echoEnded hp =>
    obtain ⟨hm, hlegal, hin, hout⟩ := hs.echoUnderWay (by rw [hp]; rfl)
    exact ⟨⟨hm, hlegal, Nat.le_add_right_of_le hin, hout⟩, hs.cursor (.inl hp)⟩
  | flushed hp hx =>
    obtain ⟨hm, hlegal, hheader⟩ := hs.echoUnderWay (by rw [hp]; rfl)
    simp only [State.phaseInv, hp, State.sinkAsked_phase]
    exact ⟨⟨hm, hlegal, header_grows hheader 0 _⟩, State.nextIdx_lt hlegal, State.flushCnt_lt hp hx⟩
  | flushEnded hp => exact hs.echoUnderWay (by rw [hp]; rfl)
  | paired hp =>
    simp only [State.phaseInv, hp, State.inConsume_phase, State.sinkAsked_phase]
    exact ⟨hs.downmixMode hp, header_grows (hs.headerOut (.inr hp)) _ _⟩

/-- Every operation keeps the invariant. -/
theorem Executes.inv {s t : State} {i : Instr} (h : Executes s i t) (hs : s.Inv) : t.Inv :=
  (h.base hs.base).inv (h.phaseInv hs)

/-! ## The turns keep the invariant: it does not speak of the model's own fields -/

theorem State.Inv.takeTurn {s : State} (h : s.Inv) : s.takeTurn.Inv :=
  State.BaseInv.inv ⟨h.dlCanonical, h.capacity, h.errInFault, h.inPosBound⟩ h.phaseInv

theorem State.Inv.attach {s : State} (h : s.Inv) (a : Attachment) : { s with attached := a }.Inv :=
  State.BaseInv.inv ⟨h.dlCanonical, h.capacity, h.errInFault, h.inPosBound⟩ h.phaseInv

theorem State.Inv.hardReset {s : State} (h : s.Inv) : s.hardReset.Inv :=
  State.BaseInv.inv ⟨h.dlCanonical, h.capacity, by simp, Nat.le_refl 0⟩ trivial

/-- Settles O46: the turns and every operation keep the invariant. -/
theorem everyStepKeepsTheInvariant : Obligations.EveryStepKeepsTheInvariant := fun _ _ hs h =>
  step_keeps (P := State.Inv) (fun _ hs => hs.takeTurn) (fun _ a hs => hs.attach a) (fun _ hs => hs.hardReset)
    (fun _ _ _ hexec hs => (exec_next_iff.mp hexec).inv hs) hs h

end Sys2Proof.Machine
end

section
/-! The closed forms of the two pipelines, and what the machine's reads give at a known place of a run
(20_memory.md R63, 42_echo.md R170, 43_downmix.md R190). -/

namespace Sys2Proof.Machine

/-! ## Output, one unit at a time -/

theorem echoData_succ (g : GainUnit) (v : Word64) (d : Nat) (input : List Byte) (n : Nat) :
    echoData g v d input (n + 1) = echoData g v d input n ++ sampleBytes (echoOut g v d input n) := by
  simp [echoData, List.range_succ]

theorem echoData_length (g : GainUnit) (v : Word64) (d : Nat) (input : List Byte) (n : Nat) :
    (echoData g v d input n).length = 2 * n := by
  induction n with
  | zero => rfl
  | succ n ih => rw [echoData_succ, List.length_append, ih, sampleBytes_length]; omega

theorem pairData_succ (input : List Byte) (p : Nat) :
    pairData input (p + 1) = pairData input p ++ pairBytes (pairOut input p) := by
  simp [pairData, List.range_succ]

theorem headerOf_length {input : List Byte} (h : hdrSize ≤ input.length) : (headerOf input).length = hdrSize := by
  rw [headerOf, List.length_take, Nat.min_eq_left h]

/-- A failing write of at least one byte leaves a first part of it (20_memory.md R57). -/
theorem exists_writtenOnFail_eq_take (k : Nat) {bs : List Byte} (h : 0 < bs.length) :
    ∃ j, j < bs.length ∧ writtenOnFail k bs = bs.take j :=
  ⟨min k (bs.length - 1), by omega, rfl⟩

theorem writtenOnFail_sizeField_length_le (k n : Nat) : (writtenOnFail k (sizeField n)).length ≤ 4 :=
  (List.length_take_le' _ _).trans (sizeField_length n).le

/-! ## Input: what a read at IN_POS gives -/

/-- A sample inside a window of IN is the sample of IN at that place. -/
theorem sampleAt_window (bs : List Byte) (p : Nat) {n k : Nat} (h : k + 1 < n) :
    sampleAt ((bs.drop p).take n) k = sampleAt bs (p + k) := by
  simp [sampleAt, List.getD_eq_getElem?_getD, List.getElem?_take_of_lt, h, Nat.lt_of_succ_lt h, Nat.add_assoc]

theorem inSample_natCast (input : List Byte) (n : Nat) :
    inSample input n = (sampleAt input (hdrSize + 2 * n)).toInt := by
  simp [inSample]

theorem inSample_of_neg (input : List Byte) {j : Int} (h : j < 0) : inSample input j = 0 := if_pos h

theorem State.nextSample_toInt {s : State} {n : Nat} (hpos : s.inPos = hdrSize + 2 * n) :
    s.nextSample.toInt = inSample s.input n := by
  rw [State.nextSample, State.inBytes, sampleAt_window _ _ (by omega), hpos, inSample_natCast, Nat.add_zero]

theorem State.pairSample_eq {s : State} {p : Nat} (hpos : s.inPos = hdrSize + 4 * p) :
    s.pairSample = pairOut s.input p := by
  rw [State.pairSample, State.inBytes, sampleAt_window _ _ (by omega), sampleAt_window _ _ (by omega), hpos, pairOut,
    Nat.add_zero]

/-! ## The delay line as a window on the input (10_state.md R37) -/

/-- The entry `k` places after the oldest holds the sample of DELAY places before. -/
theorem State.echoSample_eq {s : State} {n k : Nat} (hline : s.lineHolds n) (hk : k < s.delayNat)
    (hidx : s.idx = (n + k) % s.delayNat) :
    s.echoSample = inSample s.input (((n + k : Nat) : Int) - s.delayNat) := by
  rw [State.echoSample, hidx, hline k hk]
  congr 1
  omega

/-- A cleared line holds the samples before the first, all 0 (42_echo.md R140, R145). -/
theorem State.lineHolds_cleared (s : State) :
    { s with dl := Memory.zeroBelow s.delayNat s.dl }.lineHolds 0 := by
  intro k (hk : k < s.delayNat)
  show (Memory.read (Memory.zeroBelow s.delayNat s.dl) ((0 + k) % s.delayNat)).toInt =
    inSample s.input (((0 : Nat) : Int) - s.delayNat + k)
  rw [Memory.read_zeroBelow, if_pos (Nat.mod_lt _ (by omega)), inSample_of_neg _ (by omega)]
  rfl

/-- Storing the next raw sample over the oldest entry moves the window on by one sample (42_echo.md R153). -/
theorem State.lineHolds_stored {s : State} {n : Nat} (hwf : Memory.wf s.dl = true) (hline : s.lineHolds n)
    (hidx : s.idx = n % s.delayNat) (hnext : s.nextSample.toInt = inSample s.input n) :
    { s with dl := Memory.write s.dl s.idx s.nextSample }.lineHolds (n + 1) := by
  intro k (hk : k < s.delayNat)
  show (Memory.read (Memory.write s.dl s.idx s.nextSample) ((n + 1 + k) % s.delayNat)).toInt =
    inSample s.input (((n + 1 : Nat) : Int) - s.delayNat + k)
  rw [Memory.read_write _ hwf, hidx]
  by_cases hlast : k + 1 = s.delayNat
  · rw [Nat.add_assoc, Nat.add_comm 1 k, hlast, Nat.add_mod_right, if_pos rfl, hnext]
    congr 1
    omega
  · have hother : (n + 1 + k) % s.delayNat ≠ n % s.delayNat := by
      intro heq
      have hdvd : s.delayNat ∣ n + 1 + k - n := (Nat.modEq_iff_dvd' (by omega)).mp heq.symm
      exact absurd (Nat.le_of_dvd (by omega) hdvd) (by omega)
    rw [if_neg hother, Nat.add_assoc, Nat.add_comm 1 k, hline (k + 1) (by omega)]
    congr 1
    omega

/-- The mix emits the run's next output sample (42_echo.md R170). -/
theorem State.mixedSample_eq {s : State} {n : Nat} (hn : n < sampleCount s.input) (hpos : s.inPos = hdrSize + 2 * n)
    (hidx : s.idx = n % s.delayNat) (hline : s.lineHolds n) (hd : 0 < s.delayNat) :
    s.mixedSample = echoOut s.gain s.vscale s.delayNat s.input n := by
  rw [State.mixedSample, State.nextSample_toInt hpos, State.echoSample_eq (k := 0) hline hd hidx, echoOut, if_pos hn]
  rfl

/-- The flush emits the run's next tail sample (42_echo.md R170). -/
theorem State.tailSample_eq {s : State} {k : Nat} (hk : k < s.delayNat)
    (hidx : s.idx = (sampleCount s.input + k) % s.delayNat) (hline : s.lineHolds (sampleCount s.input)) :
    scale s.gain s.vscale s.echoSample = echoOut s.gain s.vscale s.delayNat s.input (sampleCount s.input + k) := by
  rw [State.echoSample_eq hline hk hidx, echoOut, if_neg (by omega)]

/-! ## Overwriting the size fields (41_sequencer_header.md R130, R132) -/

theorem take_overlay {out bs : List Byte} {off m : Nat} (hm : m ≤ off) (ho : off ≤ out.length) :
    (overlay out off bs).take m = out.take m := by
  rw [overlay, List.append_assoc, List.take_append_of_le_length (by rw [List.length_take]; omega), List.take_take,
    Nat.min_eq_left hm]

theorem drop_overlay {out bs : List Byte} {off m : Nat} (hm : off + bs.length ≤ m) (ho : off ≤ out.length) :
    (overlay out off bs).drop m = out.drop m := by
  have hlen : (out.take off ++ bs).length = off + bs.length := by
    rw [List.length_append, List.length_take, Nat.min_eq_left ho]
  rw [overlay, List.drop_append, hlen, List.drop_eq_nil_of_le (by omega), List.nil_append, List.drop_drop]
  congr 1
  omega

/-- Two outputs that differ at most in the two size fields. -/
structure SameButSizes (out out' : List Byte) : Prop where
  length : out'.length = out.length
  beforeRiff : out'.take riffOff = out.take riffOff
  between : (out'.drop 8).take 32 = (out.drop 8).take 32
  afterHeader : out'.drop hdrSize = out.drop hdrSize

theorem SameButSizes.trans {a b c : List Byte} (h : SameButSizes a b) (h' : SameButSizes b c) : SameButSizes a c :=
  ⟨h'.length.trans h.length, h'.beforeRiff.trans h.beforeRiff, h'.between.trans h.between,
    h'.afterHeader.trans h.afterHeader⟩

theorem sameButSizes_overlay_riff {out bs : List Byte} (ho : 44 ≤ out.length) (hb : bs.length ≤ 4) :
    SameButSizes out (overlay out riffOff bs) where
  length := overlay_length out 4 bs (by omega)
  beforeRiff := take_overlay (off := 4) le_rfl (by omega)
  between := by rw [drop_overlay (off := 4) (by omega) (by omega)]
  afterHeader := drop_overlay (off := 4) (m := 44) (by omega) (by omega)

theorem sameButSizes_overlay_data {out bs : List Byte} (ho : 44 ≤ out.length) (hb : bs.length ≤ 4) :
    SameButSizes out (overlay out dataOff bs) where
  length := overlay_length out 40 bs (by omega)
  beforeRiff := take_overlay (off := 40) (m := 4) (by omega) (by omega)
  between := by
    have htake : (overlay out dataOff bs).take 40 = out.take 40 := take_overlay (off := 40) le_rfl (by omega)
    simpa only [List.drop_take] using congrArg (List.drop 8) htake
  afterHeader := drop_overlay (off := 40) (m := 44) (by omega) (by omega)

/-- Both overwrites together give the patched header and leave the data. -/
theorem overlay_sizes {header : List Byte} (hh : header.length = 44) (data : List Byte) (total : Nat) :
    overlay (overlay (header ++ data) riffOff (sizeField (total - 8))) dataOff (sizeField (total - hdrSize)) =
      patchedHeader header total ++ data := by
  have hout : 4 ≤ (header ++ data).length := by rw [List.length_append]; omega
  have hdata : (overlay (header ++ data) riffOff (sizeField (total - 8))).drop 44 = data := by
    rw [drop_overlay (off := 4) (by simp) hout, ← hh, List.drop_left]
  have hhead : (overlay (header ++ data) riffOff (sizeField (total - 8))).take 40 =
      header.take riffOff ++ sizeField (total - 8) ++ (header.drop 8).take 32 := by
    simp [overlay, riffOff, List.take_append, List.drop_append, hh, List.take_of_length_le]
  rw [overlay, hhead, sizeField_length, hdata, patchedHeader]

end Sys2Proof.Machine
end

section
/-! The history: each phase's clause of `State.trace`, and that every operation leads from its phase's clause to that of
the phase it ends in (10_state.md R37, 60_exceptions.md R207). -/

namespace Sys2Proof.Machine

/-! ## The clauses, by phase -/

theorem State.trace_echoInit {s : State} (hp : s.phase = .echoInit) :
    s.trace ↔ s.inPos = hdrSize ∧ s.out = headerOf s.input := by
  simp only [State.trace, hp]

theorem State.trace_echoRun {s : State} (hp : s.phase = .echoRun) :
    s.trace ↔ ∃ n, s.inPos = hdrSize + 2 * n ∧ s.out = headerOf s.input ++ s.echoDataSoFar n ∧
      s.idx = n % s.delayNat ∧ s.lineHolds n := by
  simp only [State.trace, hp]

theorem State.trace_echoFlush {s : State} (hp : s.phase = .echoFlush) :
    s.trace ↔ s.inPos = s.input.length ∧
      s.out = headerOf s.input ++ s.echoDataSoFar (sampleCount s.input + s.flushCnt) ∧
      s.idx = (sampleCount s.input + s.flushCnt) % s.delayNat ∧ s.lineHolds (sampleCount s.input) := by
  simp only [State.trace, hp]

theorem State.trace_patch {s : State} (hp : s.phase = .patch) :
    s.trace ↔ s.inPos = s.input.length ∧ s.out = headerOf s.input ++ s.echoDataSoFar s.echoTotal := by
  simp only [State.trace, hp]

theorem State.trace_dmxRun {s : State} (hp : s.phase = .dmxRun) :
    s.trace ↔ ∃ p, s.inPos = hdrSize + 4 * p ∧ s.out = headerOf s.input ++ pairData s.input p := by
  simp only [State.trace, hp]

/-! ## Places in the data part -/

theorem State.lt_sampleCount {s : State} {n : Nat} (hp : s.phase = .echoRun) (hx : s.exh = false)
    (hpos : s.inPos = hdrSize + 2 * n) : n < sampleCount s.input := by
  rw [State.exh_echoRun hp, decide_eq_false_iff_not, State.inAvail] at hx
  rw [sampleCount]
  omega

/-- At the end of the samples the count is N, and the stray byte, if there is one, ends IN (42_echo.md R157). -/
theorem State.at_end_of_samples {s : State} {n : Nat} (hp : s.phase = .echoRun) (hx : s.exh = true)
    (hpos : s.inPos = hdrSize + 2 * n) (hbound : s.inPos ≤ s.input.length) :
    sampleCount s.input = n ∧ s.inPos + (if s.inAvail = 1 then 1 else 0) = s.input.length := by
  rw [State.exh_echoRun hp, decide_eq_true_eq] at hx
  rw [State.inAvail] at hx ⊢
  rw [sampleCount]
  split <;> omega

theorem State.pairCount_of_exhausted {s : State} {p : Nat} (hp : s.phase = .dmxRun) (hx : s.exh = true)
    (hpos : s.inPos = hdrSize + 4 * p) (hbound : s.inPos ≤ s.input.length) : pairCount s.input = p := by
  rw [State.exh_dmxRun hp, decide_eq_true_eq, State.inAvail] at hx
  rw [pairCount]
  omega

theorem State.nextIdx_of_mod {s : State} {n : Nat} (h : s.idx = n % s.delayNat) :
    s.nextIdx = (n + 1) % s.delayNat := by
  rw [State.nextIdx, h, Nat.mod_add_mod]

theorem State.echoDataSoFar_succ (s : State) (n : Nat) :
    s.echoDataSoFar (n + 1) =
      s.echoDataSoFar n ++ sampleBytes (echoOut s.gain s.vscale s.delayNat s.input n) := echoData_succ _ _ _ _ _

/-! ## The operations that go on -/

theorem Executes.headerCopied_trace {s : State} (hs : s.Inv) (hp : s.phase = .hdr) :
    { (s.inConsume hdrSize).sinkAsked with
      out := s.out ++ s.inBytes hdrSize, phase := firstPhaseOf s.mode }.trace := by
  obtain ⟨hpos, hout⟩ := hs.fresh (.inr hp)
  have hcopy : s.out ++ s.inBytes hdrSize = headerOf s.input := by
    rw [hout, State.inBytes, hpos, List.drop_zero, List.nil_append, headerOf]
  have hmoved : s.inPos + hdrSize = hdrSize := by rw [hpos, Nat.zero_add]
  rcases hm : s.mode with _ | _
  · exact ⟨hmoved, hcopy⟩
  · exact ⟨0, hmoved, hcopy.trans (List.append_nil _).symm⟩

theorem Executes.lineCleared_trace {s : State} (hp : s.phase = .echoInit) (ht : s.trace) :
    { s with dl := Memory.zeroBelow s.delayNat s.dl, idx := 0, flushCnt := 0, phase := .echoRun }.trace := by
  obtain ⟨hpos, hout⟩ := (State.trace_echoInit hp).mp ht
  exact ⟨0, hpos, hout.trans (List.append_nil _).symm, (Nat.zero_mod _).symm, s.lineHolds_cleared⟩

theorem Executes.mixed_trace {s : State} (hs : s.Inv) (hp : s.phase = .echoRun) (hx : s.exh = false) (ht : s.trace) :
    { (s.inConsume 2).sinkAsked with
      out := s.out ++ sampleBytes s.mixedSample
      dl := Memory.write s.dl s.idx s.nextSample
      idx := s.nextIdx }.trace := by
  obtain ⟨n, hpos, hout, hidx, hline⟩ := (State.trace_echoRun hp).mp ht
  have hmix := State.mixedSample_eq (State.lt_sampleCount hp hx hpos) hpos hidx hline
    (Nat.zero_lt_of_lt (hs.cursor (.inl hp)).1)
  refine (State.trace_echoRun (by exact hp)).mpr ⟨n + 1, ?_, ?_, State.nextIdx_of_mod hidx,
    State.lineHolds_stored hs.dlCanonical hline hidx (State.nextSample_toInt hpos)⟩
  · show s.inPos + 2 = hdrSize + 2 * (n + 1)
    omega
  · show s.out ++ sampleBytes s.mixedSample = headerOf s.input ++ s.echoDataSoFar (n + 1)
    rw [hmix, hout, State.echoDataSoFar_succ, List.append_assoc]

theorem Executes.echoEnded_trace {s : State} (hs : s.Inv) (hp : s.phase = .echoRun) (hx : s.exh = true)
    (ht : s.trace) :
    { s with inPos := s.inPos + (if s.inAvail = 1 then 1 else 0), phase := .echoFlush }.trace := by
  obtain ⟨n, hpos, hout, hidx, hline⟩ := (State.trace_echoRun hp).mp ht
  obtain ⟨rfl, hend⟩ := State.at_end_of_samples hp hx hpos hs.inPosBound
  have hcount : sampleCount s.input + s.flushCnt = sampleCount s.input := by rw [hs.noFlushYet hp, Nat.add_zero]
  exact ⟨hend, by rw [hcount]; exact hout, by rw [hcount]; exact hidx, hline⟩

theorem Executes.flushed_trace {s : State} (hp : s.phase = .echoFlush) (hx : s.exh = false) (ht : s.trace) :
    { s.sinkAsked with
      out := s.out ++ sampleBytes (scale s.gain s.vscale s.echoSample)
      idx := s.nextIdx
      flushCnt := s.flushCnt + 1 }.trace := by
  obtain ⟨hpos, hout, hidx, hline⟩ := (State.trace_echoFlush hp).mp ht
  refine (State.trace_echoFlush (by exact hp)).mpr ⟨hpos, ?_, State.nextIdx_of_mod hidx, hline⟩
  show s.out ++ _ = headerOf s.input ++ s.echoDataSoFar (sampleCount s.input + s.flushCnt + 1)
  rw [State.tailSample_eq (State.flushCnt_lt hp hx) hidx hline, hout, State.echoDataSoFar_succ, List.append_assoc]

theorem Executes.flushEnded_trace {s : State} (hs : s.Inv) (hp : s.phase = .echoFlush) (hx : s.exh = true)
    (ht : s.trace) : { s with phase := .patch }.trace := by
  obtain ⟨hpos, hout, -, -⟩ := (State.trace_echoFlush hp).mp ht
  have hflush : s.flushCnt = s.delayNat := by
    have hle := (hs.cursor (.inr hp)).2
    rw [State.exh_echoFlush hp, decide_eq_true_eq] at hx
    rw [State.delayNat] at hle ⊢
    omega
  rw [hflush] at hout
  exact ⟨hpos, hout⟩

theorem Executes.paired_trace {s : State} (hp : s.phase = .dmxRun) (ht : s.trace) :
    { (s.inConsume 4).sinkAsked with out := s.out ++ pairBytes s.pairSample }.trace := by
  obtain ⟨p, hpos, hout⟩ := (State.trace_dmxRun hp).mp ht
  refine (State.trace_dmxRun (by exact hp)).mpr ⟨p + 1, ?_, ?_⟩
  · show s.inPos + 4 = hdrSize + 4 * (p + 1)
    omega
  · show s.out ++ pairBytes s.pairSample = headerOf s.input ++ pairData s.input (p + 1)
    rw [State.pairSample_eq hpos, hout, pairData_succ, List.append_assoc]

/-! ## The operations that end a run -/

/-- In PATCH the header is whole, and OUT has the length the size fields are computed from. -/
theorem State.patch_out {s : State} (hs : s.Inv) (hp : s.phase = .patch) (ht : s.trace) :
    (headerOf s.input).length = 44 ∧ s.inPos = s.input.length ∧ s.out.length = hdrSize + 2 * s.echoTotal ∧
      s.out = headerOf s.input ++ s.echoDataSoFar s.echoTotal := by
  obtain ⟨hpos, hout⟩ := (State.trace_patch hp).mp ht
  have hhdr := headerOf_length (hpos ▸ (hs.headerOut (.inl (by rw [hp]; rfl))).1)
  refine ⟨hhdr, hpos, ?_, hout⟩
  rw [hout, List.length_append, hhdr, State.echoDataSoFar, echoData_length]

/-- What an overwrite that tore at a size field leaves, as `State.faultTrace` tells it. -/
theorem SameButSizes.header_data {header data out : List Byte} (hh : header.length = 44)
    (h : SameButSizes (header ++ data) out) :
    out.take riffOff = header.take riffOff ∧ (out.drop 8).take 32 = (header.drop 8).take 32 ∧
      out.drop hdrSize = data := by
  refine ⟨h.beforeRiff.trans ?_, h.between.trans ?_, h.afterHeader.trans ?_⟩
  · rw [List.take_append_of_le_length (by rw [hh]; decide)]
  · rw [List.drop_append_of_le_length (by omega), List.take_append_of_le_length (by rw [List.length_drop]; omega)]
  · exact List.drop_left' hh

/-- Torn at either size field, the run ends in ERR_PATCH with all but the two fields in place. -/
theorem State.patchTorn_trace {s t : State} (hs : s.Inv) (hp : s.phase = .patch) (ht : s.trace)
    (hout : SameButSizes s.out t.out)
    (hrest : t = { s with
      out := t.out, err := .errPatch, phase := .fault, sink := t.sink, sinkCount := t.sinkCount }) : t.trace := by
  obtain ⟨hhdr, hpos, hlen, hdata⟩ := State.patch_out hs hp ht
  have hsame := hout.length
  obtain ⟨hriff, hbetween, hafter⟩ := SameButSizes.header_data hhdr (hdata ▸ hout)
  rw [hrest]
  exact ⟨hpos, hsame.trans hlen, hriff, hbetween, hafter⟩

theorem Executes.patched_trace {s : State} (hs : s.Inv) (hp : s.phase = .patch) (ht : s.trace) :
    { s.sinkAsked.sinkAsked with
      out := overlay (overlay s.out riffOff (sizeField (s.out.length - 8))) dataOff
        (sizeField (s.out.length - hdrSize))
      phase := .done }.trace := by
  obtain ⟨hhdr, hpos, hlen, hout⟩ := State.patch_out hs hp ht
  have hmode : s.mode = .echo := hs.echoMode (by rw [hp]; rfl)
  have hfields := overlay_sizes hhdr (s.echoDataSoFar s.echoTotal) s.out.length
  rw [← hout, hlen] at hfields
  refine ⟨hpos ▸ (hs.headerOut (.inl (by rw [hp]; rfl))).1, hpos, ?_⟩
  rw [hlen]
  simp only [State.sinkAsked_mode, hmode]
  exact hfields

theorem Executes.dmxEnded_trace {s : State} (hs : s.Inv) (hp : s.phase = .dmxRun) (hx : s.exh = true)
    (ht : s.trace) : { s with inPos := s.inPos + s.inAvail, phase := .done }.trace := by
  obtain ⟨p, hpos, hout⟩ := (State.trace_dmxRun hp).mp ht
  obtain rfl := State.pairCount_of_exhausted hp hx hpos hs.inPosBound
  have hin := (hs.headerOut (.inr hp)).1
  refine ⟨hin.trans hs.inPosBound, Nat.add_sub_of_le hs.inPosBound, ?_⟩
  simp only [hs.downmixMode hp]
  exact hout

/-! ## The torn writes -/

theorem Executes.headerTorn_trace {s : State} (hs : s.Inv) (hp : s.phase = .hdr) (hin : hdrSize ≤ s.inAvail) (k : Nat) :
    { (s.inConsume hdrSize).sinkAsked with
      out := s.out ++ writtenOnFail k (s.inBytes hdrSize), err := .errHdrWrite, phase := .fault }.trace := by
  obtain ⟨hpos, hout⟩ := hs.fresh (.inr hp)
  have hread : s.inBytes hdrSize = headerOf s.input := by rw [State.inBytes, hpos, List.drop_zero, headerOf]
  have hlen : (headerOf s.input).length = hdrSize := headerOf_length (hin.trans (Nat.sub_le _ _))
  obtain ⟨j, hj, htorn⟩ := exists_writtenOnFail_eq_take k (bs := headerOf s.input) (by rw [hlen]; decide)
  refine ⟨?_, j, hlen ▸ hj, ?_⟩
  · show s.inPos + hdrSize = hdrSize
    rw [hpos, Nat.zero_add]
  · show s.out ++ _ = _
    rw [hout, hread, htorn, List.nil_append]
    rfl

theorem Executes.mixTorn_trace {s : State} (hs : s.Inv) (hp : s.phase = .echoRun) (hx : s.exh = false) (ht : s.trace)
    (k : Nat) :
    { (s.inConsume 2).sinkAsked with
      out := s.out ++ writtenOnFail k (sampleBytes s.mixedSample), err := .errWrite, phase := .fault }.trace := by
  obtain ⟨n, hpos, hout, hidx, hline⟩ := (State.trace_echoRun hp).mp ht
  have hmix := State.mixedSample_eq (State.lt_sampleCount hp hx hpos) hpos hidx hline
    (Nat.zero_lt_of_lt (hs.cursor (.inl hp)).1)
  obtain ⟨j, hj, htorn⟩ := exists_writtenOnFail_eq_take k (bs := sampleBytes s.mixedSample) (by simp)
  have hmode : s.mode = .echo := hs.echoMode (by rw [hp]; rfl)
  simp only [State.trace, State.faultTrace, State.sinkAsked_mode, State.inConsume_mode, hmode]
  refine .inl ⟨n, j, hj, ?_, ?_⟩
  · show s.inPos + 2 = hdrSize + 2 * (n + 1)
    omega
  · rw [htorn, hmix, hout]
    rfl

theorem Executes.flushTorn_trace {s : State} (hs : s.Inv) (hp : s.phase = .echoFlush) (hx : s.exh = false)
    (ht : s.trace) (k : Nat) :
    { s.sinkAsked with
      out := s.out ++ writtenOnFail k (sampleBytes (scale s.gain s.vscale s.echoSample))
      err := .errWrite
      phase := .fault }.trace := by
  obtain ⟨hpos, hout, hidx, hline⟩ := (State.trace_echoFlush hp).mp ht
  have hlt := State.flushCnt_lt hp hx
  obtain ⟨j, hj, htorn⟩ :=
    exists_writtenOnFail_eq_take k (bs := sampleBytes (scale s.gain s.vscale s.echoSample)) (by simp)
  have hmode : s.mode = .echo := hs.echoMode (by rw [hp]; rfl)
  simp only [State.trace, State.faultTrace, State.sinkAsked_mode, hmode]
  refine .inr ⟨s.flushCnt, j, hlt, hj, hpos, ?_⟩
  rw [htorn, State.tailSample_eq hlt hidx hline, hout]
  rfl

theorem Executes.pairTorn_trace {s : State} (hs : s.Inv) (hp : s.phase = .dmxRun) (ht : s.trace) (k : Nat) :
    { (s.inConsume 4).sinkAsked with
      out := s.out ++ writtenOnFail k (pairBytes s.pairSample), err := .errWrite, phase := .fault }.trace := by
  obtain ⟨p, hpos, hout⟩ := (State.trace_dmxRun hp).mp ht
  obtain ⟨j, hj, htorn⟩ := exists_writtenOnFail_eq_take k (bs := pairBytes s.pairSample) (by simp)
  simp only [State.trace, State.faultTrace, State.sinkAsked_mode, State.inConsume_mode, hs.downmixMode hp]
  refine ⟨p, j, hj, ?_, ?_⟩
  · show s.inPos + 4 = hdrSize + 4 * (p + 1)
    omega
  · rw [htorn, State.pairSample_eq hpos, hout]
    rfl

/-! ## Every operation, and every step -/

/-- Every operation leads from its phase's clause of the history to that of the phase it ends in. -/
theorem Executes.trace {s t : State} {i : Instr} (h : Executes s i t) (hs : s.Inv) (ht : s.trace) : t.trace := by
  cases h with
  | rdreg | nopw | ignored => exact ht
  | setmode _ hp | setdelay _ hp | setvscale _ hp => simp only [State.trace, hp]
  | start | abort | echoAccepted | dmxAccepted => trivial
  | echoRejected c hp hm hc => obtain rfl | rfl | rfl := State.checkCause_mem hc <;> exact hs.fresh (.inl hp)
  | headerShort hp => exact hs.fresh (.inr hp)
  | headerCopied hp => exact headerCopied_trace hs hp
  | headerTorn k hp hin => exact headerTorn_trace hs hp hin k
  | lineCleared hp => exact lineCleared_trace hp ht
  | mixed hp hx => exact mixed_trace hs hp hx ht
  | mixTorn k hp hx => exact mixTorn_trace hs hp hx ht k
  | echoEnded hp hx => exact echoEnded_trace hs hp hx ht
  | flushed hp hx => exact flushed_trace hp hx ht
  | flushTorn k hp hx => exact flushTorn_trace hs hp hx ht k
  | flushEnded hp hx => exact flushEnded_trace hs hp hx ht
  | riffTorn k hp ho =>
    exact State.patchTorn_trace hs hp ht
      (sameButSizes_overlay_riff ho (writtenOnFail_sizeField_length_le k _)) rfl
  | dataTorn k hp ho =>
    have hriff := sameButSizes_overlay_riff (bs := sizeField (s.out.length - 8)) ho le_rfl
    have hdata := sameButSizes_overlay_data (hriff.length ▸ ho)
      (writtenOnFail_sizeField_length_le k (s.out.length - hdrSize))
    exact State.patchTorn_trace hs hp ht (hriff.trans hdata) rfl
  | patched hp => exact patched_trace hs hp ht
  | paired hp => exact paired_trace hp ht
  | pairTorn k hp => exact pairTorn_trace hs hp ht k
  | dmxEnded hp hx => exact dmxEnded_trace hs hp hx ht

/-- Settles O47: the history does not speak of the model's own fields, and every operation keeps it. -/
theorem everyStepKeepsTheTrace : Obligations.EveryStepKeepsTheTrace := fun _ _ hs h =>
  step_keeps (P := State.RunInv) (fun _ hs => ⟨hs.1.takeTurn, hs.2⟩) (fun _ a hs => ⟨hs.1.attach a, hs.2⟩)
    (fun _ hs => ⟨hs.1.hardReset, trivial⟩)
    (fun _ _ _ hexec hs =>
      have hexecutes := exec_next_iff.mp hexec
      ⟨hexecutes.inv hs.1, hexecutes.trace hs.1 hs.2⟩) hs h

/-- Settles O48: DELAY_MAX has its range by its type, and every other clause is about a value of reset. -/
theorem resetHasTheInvariant : Obligations.ResetHasTheInvariant :=
  ⟨State.BaseInv.inv ⟨rfl, ⟨Nat.le_add_left _ _, Config.delayMaxPred.isLt⟩, by simp [State.reset], Nat.le_refl 0⟩
    trivial, trivial⟩

end Sys2Proof.Machine
end

section
/-! What an earlier run left in DL, IDX and FLUSH_CNT shows in no run: machines that differ there alone take the same
turns, execute the same operations and go on differing there alone (10_state.md R41). -/

namespace Sys2Proof.Machine

/-- The machine with another delay line, cursor and flush count. -/
def State.withLine (s : State) (line : Memory) (idx flushCnt : Nat) : State :=
  { s with dl := line, idx := idx, flushCnt := flushCnt }

/-- Two machines that differ at most in the line, as one machine and what stands there instead. -/
theorem State.sameRun_iff {s t : State} :
    s.sameRun t ↔ ∃ line idx flushCnt, t = s.withLine line idx flushCnt ∧
      (s.phase = .echoRun ∨ s.phase = .echoFlush →
        idx = s.idx ∧ flushCnt = s.flushCnt ∧ ∀ i, i < s.delayNat → Memory.read line i = Memory.read s.dl i) := by
  constructor
  · rintro ⟨ht, hloop⟩
    exact ⟨t.dl, t.idx, t.flushCnt, ht, hloop⟩
  · rintro ⟨line, idx, flushCnt, rfl, hloop⟩
    exact ⟨rfl, hloop⟩

theorem State.sameRun.exh_eq {s t : State} (h : s.sameRun t) : t.exh = s.exh := by
  obtain ⟨line, idx, flushCnt, rfl, hloop⟩ := State.sameRun_iff.mp h
  cases hp : s.phase
  case echoRun => rw [State.exh_echoRun hp, State.exh_echoRun (by exact hp)]; rfl
  case dmxRun => rw [State.exh_dmxRun hp, State.exh_dmxRun (by exact hp)]; rfl
  case echoFlush =>
    obtain ⟨-, rfl, -⟩ := hloop (.inr hp)
    rw [State.exh_echoFlush hp, State.exh_echoFlush (by exact hp)]
    rfl
  all_goals simp only [State.exh, State.withLine, hp]

theorem State.sameRun.selector_eq {s t : State} (h : s.sameRun t) : t.selector = s.selector := by
  rw [State.selector, State.selector, h.exh_eq, h.1]

theorem State.sameRun.schedule_eq {s t : State} (h : s.sameRun t) : t.schedule = s.schedule := by rw [h.1]

theorem State.sameRun.takeTurn {s t : State} (h : s.sameRun t) : s.takeTurn.sameRun t.takeTurn := by
  obtain ⟨line, idx, flushCnt, rfl, hloop⟩ := State.sameRun_iff.mp h
  exact ⟨rfl, hloop⟩

/-! ## The same operation is fetched -/

theorem State.sameRun.sequencer_run {s t : State} (h : s.sameRun t) {i : Instr} {u : State}
    (hf : fetchSequencer s = .run i u) : fetchSequencer t = .run i t := by
  unfold fetchSequencer at hf ⊢
  rw [h.selector_eq]
  split at hf <;> cases hf
  simp [*]

theorem State.sameRun.sequencer_settle {s t : State} (h : s.sameRun t) {u : State}
    (hf : fetchSequencer s = .settle u) : fetchSequencer t = .settle t := by
  unfold fetchSequencer at hf ⊢
  rw [h.selector_eq]
  split at hf <;> cases hf
  simp [*]

theorem State.sameRun.turn_run {s t : State} (h : s.sameRun t) {turn : Turn} {i : Instr} {u : State}
    (hf : fetchTurn turn s = .run i u) : fetchTurn turn t = .run i t := by
  cases turn with
  | sequencer => exact h.sequencer_run hf
  | transaction ht => cases hf; rfl
  | attach a => cases hf
  | reset => cases hf

theorem State.sameRun.turn_settle {s t : State} (h : s.sameRun t) {turn : Turn} {s' : State}
    (hf : fetchTurn turn s = .settle s') : ∃ t', fetchTurn turn t = .settle t' ∧ s'.sameRun t' := by
  cases turn with
  | sequencer =>
    obtain rfl := fetchSequencer_settle hf
    exact ⟨t, h.sequencer_settle hf, h⟩
  | transaction ht => cases hf
  | attach a =>
    cases hf
    obtain ⟨line, idx, flushCnt, rfl, hloop⟩ := State.sameRun_iff.mp h
    exact ⟨_, rfl, rfl, hloop⟩
  | reset =>
    cases hf
    obtain ⟨line, idx, flushCnt, rfl, -⟩ := State.sameRun_iff.mp h
    exact ⟨_, rfl, rfl, by simp⟩

/-! ## The same operation has the same effect -/

/-- The line is read at the cursor alone, where machines in one run agree. -/
theorem State.sameRun.echoSample_eq {s t : State} (h : s.sameRun t) (hp : s.phase = .echoRun ∨ s.phase = .echoFlush)
    (hs : s.Inv) : t.echoSample = s.echoSample := by
  obtain ⟨hidx, -, hread⟩ := h.2 hp
  rw [State.echoSample, State.echoSample, hidx, hread _ (hs.cursor hp).1]

theorem State.sameRun.mixedSample_eq {s t : State} (h : s.sameRun t) (hp : s.phase = .echoRun) (hs : s.Inv) :
    t.mixedSample = s.mixedSample := by
  rw [State.mixedSample, State.mixedSample, h.echoSample_eq (.inl hp) hs, h.1]
  rfl

theorem Executes.sameRun {s t s' : State} {i : Instr} (h : Executes s i s') (hs : s.Inv) (ht : t.Inv)
    (hst : s.sameRun t) : ∃ t', Executes t i t' ∧ s'.sameRun t' := by
  have hexh := hst.exh_eq
  obtain ⟨line, idx, flushCnt, rfl, hloop⟩ := State.sameRun_iff.mp hst
  cases h with
  | rdreg r => exact ⟨_, .rdreg r, rfl, hloop⟩
  | nopw hi => exact ⟨_, .nopw hi, rfl, hloop⟩
  | ignored hi hp => exact ⟨_, .ignored hi hp, rfl, hloop⟩
  | start hp => exact ⟨_, .start hp, rfl, by simp⟩
  | abort => exact ⟨_, .abort, rfl, by simp⟩
  | setmode m hp => exact ⟨_, .setmode m hp, rfl, by simp [hp]⟩
  | setdelay n hp => exact ⟨_, .setdelay n hp, rfl, by simp [hp]⟩
  | setvscale v hp => exact ⟨_, .setvscale v hp, rfl, by simp [hp]⟩
  | echoRejected c hp hm hc => exact ⟨_, .echoRejected c hp hm hc, rfl, by simp⟩
  | echoAccepted hp hm hc => exact ⟨_, .echoAccepted hp hm hc, rfl, by simp⟩
  | dmxAccepted hp hm => exact ⟨_, .dmxAccepted hp hm, rfl, by simp⟩
  | headerShort hp hin => exact ⟨_, .headerShort hp hin, rfl, by simp⟩
  | headerCopied hp hin ha =>
    exact ⟨_, .headerCopied hp hin ha, rfl, by cases s.mode <;> simp [firstPhaseOf]⟩
  | headerTorn k hp hin ha => exact ⟨_, .headerTorn k hp hin ha, rfl, by simp⟩
  | lineCleared hp =>
    refine ⟨_, .lineCleared hp, rfl, fun _ => ⟨rfl, rfl, fun i (hi : i < s.delayNat) => ?_⟩⟩
    exact (Memory.read_zeroBelow ..).trans ((if_pos hi).trans ((Memory.read_zeroBelow ..).trans (if_pos hi)).symm)
  | mixed hp hx hl ha =>
    have hmix := hst.mixedSample_eq hp hs
    obtain ⟨rfl, rfl, hread⟩ := hloop (.inl hp)
    have hstep := Executes.mixed (s := s.withLine line s.idx s.flushCnt) hp (hexh.trans hx) hl ha
    rw [hmix] at hstep
    refine ⟨_, hstep, rfl, fun _ => ⟨rfl, rfl, fun i hi => ?_⟩⟩
    refine (Memory.read_write _ ht.dlCanonical ..).trans (.trans ?_ (Memory.read_write _ hs.dlCanonical ..).symm)
    exact if_congr Iff.rfl rfl (hread i hi)
  | mixTorn k hp hx hl ha =>
    have hmix := hst.mixedSample_eq hp hs
    obtain ⟨rfl, rfl, -⟩ := hloop (.inl hp)
    have hstep := Executes.mixTorn (s := s.withLine line s.idx s.flushCnt) k hp (hexh.trans hx) hl ha
    rw [hmix] at hstep
    exact ⟨_, hstep, rfl, by simp⟩
  | echoEnded hp hx => exact ⟨_, .echoEnded hp (hexh.trans hx), rfl, fun _ => hloop (.inl hp)⟩
  | flushed hp hx hl ha =>
    have hecho := hst.echoSample_eq (.inr hp) hs
    obtain ⟨rfl, rfl, hread⟩ := hloop (.inr hp)
    have hstep := Executes.flushed (s := s.withLine line s.idx s.flushCnt) hp (hexh.trans hx) hl ha
    rw [hecho] at hstep
    exact ⟨_, hstep, rfl, fun _ => ⟨rfl, rfl, hread⟩⟩
  | flushTorn k hp hx hl ha =>
    have hecho := hst.echoSample_eq (.inr hp) hs
    obtain ⟨rfl, rfl, -⟩ := hloop (.inr hp)
    have hstep := Executes.flushTorn (s := s.withLine line s.idx s.flushCnt) k hp (hexh.trans hx) hl ha
    rw [hecho] at hstep
    exact ⟨_, hstep, rfl, by simp⟩
  | flushEnded hp hx => exact ⟨_, .flushEnded hp (hexh.trans hx), rfl, by simp⟩
  | riffTorn k hp ho ha => exact ⟨_, .riffTorn k hp ho ha, rfl, by simp⟩
  | dataTorn k hp ho ha hb => exact ⟨_, .dataTorn k hp ho ha hb, rfl, by simp⟩
  | patched hp ho ha hb => exact ⟨_, .patched hp ho ha hb, rfl, by simp⟩
  | paired hp hx ha => exact ⟨_, .paired hp (hexh.trans hx) ha, rfl, by simp [hp]⟩
  | pairTorn k hp hx ha => exact ⟨_, .pairTorn k hp (hexh.trans hx) ha, rfl, by simp⟩
  | dmxEnded hp hx => exact ⟨_, .dmxEnded hp (hexh.trans hx), rfl, by simp⟩

/-- Settles O58: the same turn fetches the same operation, which has the same effect. -/
theorem staleDelayLineNeverShows : Obligations.StaleDelayLineNeverShows := by
  intro s t s' hs ht hst hstep
  obtain ⟨i, u, hfetch, hrun⟩ | hfetch := step_next_cases s s' hstep
  · rw [fetch_eq_fetchTurn] at hfetch
    obtain rfl := fetchTurn_run hfetch
    obtain ⟨t', hexec, hst'⟩ := (exec_next_iff.mp hrun).sameRun hs.takeTurn ht.takeTurn hst.takeTurn
    refine ⟨t', ?_, hst'⟩
    rw [step, fetch_eq_fetchTurn, hst.schedule_eq, hst.takeTurn.turn_run hfetch]
    exact exec_next_iff.mpr hexec
  · rw [fetch_eq_fetchTurn] at hfetch
    obtain ⟨t', hsettle, hst'⟩ := hst.takeTurn.turn_settle hfetch
    refine ⟨t', ?_, hst'⟩
    rw [step, fetch_eq_fetchTurn, hst.schedule_eq, hsettle]

end Sys2Proof.Machine
end

section
/-! The spaces and the configuration of a run: OUT, which operations overwrite and which extend; IN and its cursor; the
delay line's bounds; and what a busy machine keeps of its configuration in every turn but hardware reset
(20_memory.md R50 to R69, 40_host_ops.md R116). -/

namespace Sys2Proof.Machine

/-! ## OUT: overwritten at the two size fields, extended everywhere else (20_memory.md R55) -/

/-- Outputs that differ at most in the size fields agree at every other place. -/
theorem SameButSizes.getElem?_eq {out out' : List Byte} (h : SameButSizes out out') {a : Nat}
    (hriff : ¬ (4 ≤ a ∧ a < 8)) (hdata : ¬ (40 ≤ a ∧ a < 44)) : out'[a]? = out[a]? := by
  obtain hlow | ⟨hge, hlt⟩ | hhigh : a < 4 ∨ (8 ≤ a ∧ a < 40) ∨ 44 ≤ a := by omega
  · simpa [List.getElem?_take, hlow] using congrArg (·[a]?) h.beforeRiff
  · have hoff : a - 8 < 32 := by omega
    simpa [List.getElem?_take, List.getElem?_drop, hoff, Nat.add_sub_cancel' hge] using
      congrArg (·[a - 8]?) h.between
  · simpa [List.getElem?_drop, Nat.add_sub_cancel' hhigh] using congrArg (·[a - 44]?) h.afterHeader

/-- Both size fields overwritten, each in whole or in part. -/
theorem sameButSizes_overlay_both {out bs bs' : List Byte} (ho : 44 ≤ out.length) (hb : bs.length ≤ 4)
    (hb' : bs'.length ≤ 4) : SameButSizes out (overlay (overlay out riffOff bs) dataOff bs') :=
  have hriff := sameButSizes_overlay_riff ho hb
  hriff.trans (sameButSizes_overlay_data (hriff.length ▸ ho) hb')

/-- HDR.PATCH, torn or not, writes inside the size fields only (41_sequencer_header.md R130). -/
theorem Executes.hdrPatch_sameButSizes {s t : State} (h : Executes s .hdrPatch t) : SameButSizes s.out t.out := by
  cases h with
  | nopw hi | ignored hi => cases hi
  | riffTorn k _ ho => exact sameButSizes_overlay_riff ho (writtenOnFail_sizeField_length_le k _)
  | dataTorn k _ ho => exact sameButSizes_overlay_both ho le_rfl (writtenOnFail_sizeField_length_le k _)
  | patched _ ho => exact sameButSizes_overlay_both ho le_rfl le_rfl

/-- Every operation but HDR.PATCH and START appends to OUT or leaves it alone. -/
theorem Executes.out_prefix {s t : State} {i : Instr} (h : Executes s i t) (hpatch : i ≠ .hdrPatch)
    (hstart : i ≠ .start) : s.out <+: t.out := by
  cases h with
  | start => exact absurd rfl hstart
  | riffTorn | dataTorn | patched => exact absurd rfl hpatch
  | headerCopied | headerTorn | mixed | mixTorn | flushed | flushTorn | paired | pairTorn =>
    exact List.prefix_append ..
  | _ => exact List.prefix_rfl

/-- Settles O52: HDR.PATCH writes inside the size fields, START is excepted, and the others append. -/
theorem onlyHdrPatchOverwritesOut : Obligations.OnlyHdrPatchOverwritesOut := by
  intro i s t hexec
  have h := exec_next_iff.mp hexec
  refine ⟨h.out_prefix, ?_⟩
  rintro rfl
  have hsame := h.hdrPatch_sameButSizes
  exact ⟨hsame.length, fun _ => hsame.getElem?_eq⟩

/-! ## IN: bound by START, read forwards by all others (20_memory.md R50, R53) -/

theorem Executes.input_eq {s t : State} {i : Instr} (h : Executes s i t) (hstart : i ≠ .start) :
    t.input = s.input := by
  cases h with
  | start => exact absurd rfl hstart
  | _ => rfl

theorem Executes.inPos_le {s t : State} {i : Instr} (h : Executes s i t) (hstart : i ≠ .start) :
    s.inPos ≤ t.inPos := by
  cases h with
  | start => exact absurd rfl hstart
  | headerCopied | headerTorn | mixed | mixTorn | echoEnded | paired | pairTorn | dmxEnded =>
    exact Nat.le_add_right ..
  | _ => exact le_rfl

/-- Settles O53: the cursor only moves forwards, and no read takes more than IN has left. -/
theorem inputIsReadOnceInOrder : Obligations.InputIsReadOnceInOrder := by
  intro i s t hstart hbound hexec
  have h := exec_next_iff.mp hexec
  exact ⟨h.input_eq hstart, h.inPos_le hstart, h.inPosBound hbound⟩

/-! ## The configuration of a busy machine (20_memory.md R69, 40_host_ops.md R116) -/

/-- `t` has the configuration, the bound input and the parameters of `s`. -/
def State.sameConfig (s t : State) : Prop :=
  t.mode = s.mode ∧ t.delay = s.delay ∧ t.vscale = s.vscale ∧ t.input = s.input ∧
    t.delayMax = s.delayMax ∧ t.gain = s.gain

/-- Outside IDLE no operation writes the configuration: what would is ignored there (40_host_ops.md R100). -/
theorem Executes.sameConfig {s t : State} {i : Instr} (h : Executes s i t) (hidle : s.phase ≠ .idle) :
    s.sameConfig t := by
  cases h with
  | start hp | setmode _ hp | setdelay _ hp | setvscale _ hp => exact absurd hp hidle
  | _ => exact ⟨rfl, rfl, rfl, rfl, rfl, rfl⟩

/-- A turn that runs no operation and is no hardware reset changes at most what the host has attached. -/
theorem fetchTurn_settle_of_ne_reset {turn : Turn} {s u : State} (hturn : turn ≠ .reset)
    (h : fetchTurn turn s = .settle u) : u = s ∨ ∃ a, u = { s with attached := a } := by
  cases turn with
  | sequencer => exact .inl (fetchSequencer_settle h)
  | transaction ht => cases h
  | attach a => cases h; exact .inr ⟨a, rfl⟩
  | reset => exact absurd rfl hturn

/-- What a step that is no hardware reset can do, after its turn is taken. -/
theorem step_cases_of_no_reset {s t : State} (hturn : ∀ rest, s.schedule ≠ .reset :: rest) (h : step s = .next t) :
    (∃ i, Executes s.takeTurn i t) ∨ t = s.takeTurn ∨ ∃ a, t = { s.takeTurn with attached := a } := by
  obtain ⟨i, u, hfetch, hrun⟩ | hfetch := step_next_cases s t h <;> rw [fetch_eq_fetchTurn] at hfetch
  · obtain rfl := fetchTurn_run hfetch
    exact .inl ⟨i, exec_next_iff.mp hrun⟩
  · refine .inr (fetchTurn_settle_of_ne_reset ?_ hfetch)
    rcases hsched : s.schedule with _ | ⟨turn, rest⟩
    · simp
    · rintro rfl
      exact hturn rest hsched

theorem Phase.ne_idle_of_busy {p : Phase} (h : p.busy = true) : p ≠ .idle := by
  rintro rfl
  cases h

/-- Settles O51: a busy machine is not in IDLE, and turns without an operation write no configuration. -/
theorem configurationIsFrozenWhileBusy : Obligations.ConfigurationIsFrozenWhileBusy := by
  intro s t hbusy hturn hstep
  obtain ⟨i, h⟩ | rfl | ⟨a, rfl⟩ := step_cases_of_no_reset hturn hstep
  · exact h.sameConfig (Phase.ne_idle_of_busy hbusy)
  · exact ⟨rfl, rfl, rfl, rfl, rfl, rfl⟩
  · exact ⟨rfl, rfl, rfl, rfl, rfl, rfl⟩

/-! ## The delay line's bounds (20_memory.md R66) -/

theorem State.idxInLine_eq_false_iff {s : State} : s.idxInLine = false ↔ s.delayNat ≤ s.idx ∨ s.delayMax ≤ s.idx := by
  simp [State.idxInLine, Decidable.imp_iff_not_or]

/-- An enabled operation whose stop holds stops. -/
theorem whenEnabled_guarded_fault {i : Instr} {s u : State} {stop : Prop} [Decidable stop] {f : Fault}
    (he : s.enables i = true) (hstop : stop) :
    whenEnabled i s (if stop then .fault f else .next u) = .fault f :=
  (if_pos he).trans (if_pos hstop)

/-- Settles O31: both accesses to the line stand behind the same guard. -/
theorem outsideTheLineStops : Obligations.OutsideTheLineStops := by
  intro s houtside
  have hline := State.idxInLine_eq_false_iff.mpr houtside
  exact ⟨fun he => whenEnabled_guarded_fault he hline, fun he => whenEnabled_guarded_fault he hline⟩

end Sys2Proof.Machine
end

section
/-! Transaction words (30_encoding.md R85, R86, R88): the fields of a word, what each host operation is read from, and
the rows of the host table, which are disjoint and cover every word. -/

namespace Sys2Proof

open Laws

/-! ## Fields -/

theorem hostRegOf_hostRegNumber (r : HostReg) : hostRegOf (hostRegNumber r) = r := by
  cases r <;> rfl

theorem hostRegNumber_hostRegOf (rn : BitVec 3) : hostRegNumber (hostRegOf rn) = rn := by
  revert rn
  decide

theorem modeOfBit_modeBit (m : Mode) : modeOfBit (modeBit m) = m := by
  cases m <;> rfl

theorem fieldData_hostWord (w : Bool) (r : HostReg) (data : Word64) : fieldData (hostWord w r data) = data :=
  BitVec.extractLsb'_append_eq_right

theorem getLsbD_fieldData (ht : HostWord) {k : Nat} (hk : k < 64) : (fieldData ht).getLsbD k = ht.getLsbD k := by
  simp [fieldData, hk]

/-- The operand field of SETDELAY, DATA[31:0], is the word's own low half. -/
theorem extractLsb'_fieldData (ht : HostWord) : (fieldData ht).extractLsb' 0 32 = ht.extractLsb' 0 32 :=
  BitVec.extractLsb'_extractLsb'_of_le (by decide)

/-! ## Decoding by W and RN -/

theorem decodeHost_of_read {ht : HostWord} (hw : fieldW ht = false) :
    decodeHost ht = .rdreg (hostRegOf (fieldRN ht)) := by
  simp [decodeHost, hw]

theorem decodeHost_of_write {ht : HostWord} {r : HostReg} (hw : fieldW ht = true)
    (hr : fieldRN ht = hostRegNumber r) : decodeHost ht = decodeWrite r (fieldData ht) := by
  simp [decodeHost, hw, hr, hostRegOf_hostRegNumber]

theorem decodeHost_hostWord_read (r : HostReg) (data : Word64) : decodeHost (hostWord false r data) = .rdreg r := by
  rw [decodeHost_of_read (fieldW_hostWord _ _ _), fieldRN_hostWord, hostRegOf_hostRegNumber]

theorem decodeHost_hostWord_write (r : HostReg) (data : Word64) :
    decodeHost (hostWord true r data) = decodeWrite r data := by
  rw [decodeHost_of_write (fieldW_hostWord _ _ _) (fieldRN_hostWord _ _ _), fieldData_hostWord]

/-- Settles O5: W and RN pick the equation of `decodeWrite` or the read, and DATA's bits are the word's own. -/
theorem hostOperandsComeFromTheirBits : Obligations.HostOperandsComeFromTheirBits := by
  intro ht
  refine ⟨fun hread => ⟨_, decodeHost_of_read hread, hostRegNumber_hostRegOf _⟩, fun hwrite => ?_⟩
  have hdecode (r : HostReg) (hr : ht.extractLsb' 64 3 = hostRegNumber r) :
      decodeHost ht = decodeWrite r (fieldData ht) := decodeHost_of_write hwrite hr
  refine ⟨fun hr => ?ctrl, hdecode .status, fun hr => ?mode, fun hr => ?delay, hdecode .vscale, hdecode .inPos,
    hdecode .outLen, hdecode .reserved⟩
  case ctrl => rw [hdecode .ctrl hr, decodeWrite, getLsbD_fieldData ht (by decide), getLsbD_fieldData ht (by decide)]
  case mode => rw [hdecode .mode hr, decodeWrite, getLsbD_fieldData ht (by decide), modeOfBit]
  case delay => rw [hdecode .delay hr, decodeWrite, extractLsb'_fieldData]

/-! ## The rows of the host table -/

theorem Instr.row_format (i : Instr) : i.row.format = i.format := by
  cases i <;> rfl

theorem OpcodeRow.selects_iff {r : OpcodeRow} {c : Code} :
    r.selects c = true ↔ c.format = r.format ∧ c.selector &&& r.maskBits = r.matchBits := by
  simp [OpcodeRow.selects]

/-- Two rows that select one word do not contradict each other in the bits both look at. -/
theorem OpcodeRow.compatible_of_selects {r r' : OpcodeRow} {c : Code} (h : r.selects c = true)
    (h' : r'.selects c = true) : r.matchBits &&& r'.maskBits = r'.matchBits &&& r.maskBits := by
  rw [← (selects_iff.mp h).2, ← (selects_iff.mp h').2, BitVec.and_assoc, BitVec.and_assoc,
    BitVec.and_comm r.maskBits]

/-- The eleven rows of the host table (30_encoding.md R88). -/
def hostRows : List OpcodeRow :=
  [Instr.rdreg .ctrl, .nopwCtrl, .start, .abort, .nopwStatus, .setmode .echo, .setdelay 0, .setvscale 0, .nopwInPos,
    .nopwOutLen, .nopwReserved].map Instr.row

theorem Instr.row_mem_hostRows {i : Instr} (h : i.format = .host) : i.row ∈ hostRows := by
  cases i with
  | rdreg | nopwCtrl | start | abort | nopwStatus | setmode | setdelay | setvscale | nopwInPos | nopwOutLen
  | nopwReserved => simp [hostRows, Instr.row]
  | _ => cases h

/-- Any two rows of the host table contradict each other in some bit both look at. -/
theorem hostRows_eq_of_compatible : ∀ r ∈ hostRows, ∀ r' ∈ hostRows,
    r.matchBits &&& r'.maskBits = r'.matchBits &&& r.maskBits → r = r' := by
  decide

theorem row_eq_of_selects_host {i j : Instr} {ht : HostWord} (hi : i.row.selects (.host ht) = true)
    (hj : j.row.selects (.host ht) = true) : i.row = j.row := by
  have hhost {k : Instr} (hk : k.row.selects (.host ht) = true) : k.row ∈ hostRows :=
    Instr.row_mem_hostRows (k.row_format.symm.trans (OpcodeRow.selects_iff.mp hk).1.symm)
  exact hostRows_eq_of_compatible _ (hhost hi) _ (hhost hj) (OpcodeRow.compatible_of_selects hi hj)

theorem decodeWrite_format (r : HostReg) (data : Word64) : (decodeWrite r data).format = .host := by
  cases r with
  | ctrl => rw [decodeWrite]; split_ifs <;> rfl
  | _ => rfl

theorem decodeHost_format (ht : HostWord) : (decodeHost ht).format = .host := by
  unfold decodeHost
  split
  · exact decodeWrite_format _ _
  · rfl

/-- The row of a read looks at W alone. -/
theorem rdreg_row_matches (rn : BitVec 3) (low : BitVec 2) : (0#1 ++ rn ++ low) &&& 0x20#6 = 0x00#6 := by
  revert rn low
  decide

/-- The row of a write looks at W, RN and, for CTRL, at DATA[1:0]. -/
theorem decodeWrite_row_matches (r : HostReg) (data : Word64) :
    (1#1 ++ hostRegNumber r ++ data.extractLsb' 0 2) &&& (decodeWrite r data).row.maskBits =
      (decodeWrite r data).row.matchBits := by
  have hbit {k : Nat} (hk : k < 2) : data.getLsbD k = (data.extractLsb' 0 2).getLsbD k := by simp [hk]
  unfold decodeWrite
  rw [hbit (by decide : 1 < 2), hbit (by decide : 0 < 2)]
  generalize data.extractLsb' 0 2 = low
  cases r
  all_goals
    dsimp only [Instr.row]
    revert low
    decide

theorem decodeHost_row_selects (ht : HostWord) : (decodeHost ht).row.selects (.host ht) = true := by
  rw [OpcodeRow.selects_iff, Instr.row_format, decodeHost_format]
  refine ⟨rfl, ?_⟩
  rw [Code.selector, hostSelector]
  cases hw : fieldW ht with
  | false => rw [decodeHost_of_read hw]; exact rdreg_row_matches _ _
  | true =>
    have hrow := decodeWrite_row_matches (hostRegOf (fieldRN ht)) (fieldData ht)
    rw [hostRegNumber_hostRegOf] at hrow
    rw [decodeHost_of_write hw (hostRegNumber_hostRegOf _).symm]
    exact hrow

/-- Settles O3: the word's own row selects it, and any two rows that select it are one. -/
theorem hostWordSelectsExactlyItsRow : Obligations.HostWordSelectsExactlyItsRow := fun ht =>
  ⟨decodeHost_format ht, decodeHost_row_selects ht, fun _ hi => row_eq_of_selects_host hi (decodeHost_row_selects ht)⟩

end Sys2Proof
end

section
/-! Sequencer selectors (30_encoding.md R90, R91, R92): a selector decodes by its row, and the selector a state computes
decodes to the operation the state enables. -/

namespace Sys2Proof

/-! ## Rows -/

theorem decodeSeq_format {ss : Selector} {i : Instr} (h : decodeSeq ss = .ok i) : i.format = .seq := by
  unfold decodeSeq at h
  split at h <;> cases h
  all_goals (repeat split) <;> rfl

/-- Settles O4: a host operation has no sequencer row, and each sequencer row is compared with the decoder at the 64
selectors. -/
theorem sequencerSelectorDecodesByItsRow : Obligations.SequencerSelectorDecodesByItsRow := by
  intro ss i
  cases hformat : i.format with
  | host =>
    have hrow : i.row.format = .host := i.row_format.trans hformat
    refine iff_of_false (fun h => ?_) (fun h => ?_)
    · cases hformat.symm.trans (decodeSeq_format h)
    · cases (OpcodeRow.selects_iff.mp h).1.trans hrow
  | seq =>
    cases i with
    | checkEcho | checkDmx | hdrCopy | echoInit | echoMix | echoEos | echoFlush | echoFlushend | hdrPatch | dmxPair
    | dmxEos => revert ss; decide
    | _ => cases hformat

end Sys2Proof

namespace Sys2Proof.Machine

/-! ## The selector of a state -/

/-- The operation of R91's rows for a phase, a MODE and an EXH; none where the sequencer is quiescent (R92). -/
def Phase.operation (p : Phase) (m : Mode) (exh : Bool) : Option Instr :=
  match p with
  | .check => some (if m = .echo then .checkEcho else .checkDmx)
  | .hdr => some .hdrCopy
  | .echoInit => some .echoInit
  | .echoRun => some (if exh then .echoEos else .echoMix)
  | .echoFlush => some (if exh then .echoFlushend else .echoFlush)
  | .patch => some .hdrPatch
  | .dmxRun => some (if exh then .dmxEos else .dmxPair)
  | .idle | .done | .fault => none

theorem seqSelector_phase (p : BitVec 4) (m x : Bool) : (seqSelector p m x).extractLsb' 2 4 = p := by
  revert p m x
  decide

theorem seqSelector_mode (p : BitVec 4) (m x : Bool) : (seqSelector p m x).getLsbD 1 = m := by
  revert p m x
  decide

theorem seqSelector_exh (p : BitVec 4) (m x : Bool) : (seqSelector p m x).getLsbD 0 = x := by
  revert p m x
  decide

/-- What the sequencer's decoder answers for the selector of a state: every code of PHASE is a row's or quiescent. -/
theorem decodeSeq_selector (s : State) :
    decodeSeq s.selector = (s.phase.operation s.mode s.exh).elim (.error .quiescent) .ok := by
  rw [State.selector, decodeSeq, seqSelector_phase, seqSelector_mode, seqSelector_exh]
  cases s.phase with
  | check => cases s.mode <;> rfl
  | _ => rfl

theorem decodeSeq_selector_eq_ok_iff {s : State} {i : Instr} :
    decodeSeq s.selector = .ok i ↔ s.phase.operation s.mode s.exh = some i := by
  rw [decodeSeq_selector]
  cases s.phase.operation s.mode s.exh <;> simp

/-- The "enabled when" column of R91, read from the row. -/
theorem State.enables_of_operation {s : State} {i : Instr} (h : s.phase.operation s.mode s.exh = some i) :
    s.enables i = true := by
  cases hp : s.phase with
  | idle | done | fault => rw [hp] at h; cases h
  | hdr | echoInit | patch => rw [hp] at h; cases h; simp [State.enables, hp]
  | check => rw [hp] at h; cases h; cases hm : s.mode <;> simp [State.enables, hp, hm]
  | echoRun | echoFlush | dmxRun => rw [hp] at h; cases h; cases hx : s.exh <;> simp [State.enables, hp, hx]

/-- The row, read from the "enabled when" column of R91. -/
theorem State.operation_of_enables {s : State} {i : Instr} (hi : i.format = .seq) (h : s.enables i = true) :
    s.phase.operation s.mode s.exh = some i := by
  cases i with
  | checkEcho | checkDmx | hdrCopy | echoInit | echoMix | echoEos | echoFlush | echoFlushend | hdrPatch | dmxPair
  | dmxEos => simp_all [State.enables, Phase.operation]
  | _ => cases hi

/-- Settles O8: both sides are the row of R91 that PHASE, MODE and EXH pick. -/
theorem enabledExactlyWhenSelected : Obligations.EnabledExactlyWhenSelected := fun _ _ hi =>
  ⟨fun h => decodeSeq_selector_eq_ok_iff.mpr (State.operation_of_enables hi h),
    fun h => State.enables_of_operation (decodeSeq_selector_eq_ok_iff.mp h)⟩

end Sys2Proof.Machine
end

section
/-! The encoder against the decoder (30_encoding.md R86, R88, R91), and words the test vectors fix. -/

namespace Sys2Proof

theorem decode_hostWord_read (r : HostReg) (data : Word64) : decode (.host (hostWord false r data)) = .ok (.rdreg r) :=
  congrArg Except.ok (decodeHost_hostWord_read r data)

theorem decode_hostWord_write (r : HostReg) (data : Word64) :
    decode (.host (hostWord true r data)) = .ok (decodeWrite r data) :=
  congrArg Except.ok (decodeHost_hostWord_write r data)

/-- The operand field gives back an integer of 32 bits (R80). -/
theorem decodeWrite_delay {n : Int} (h : fitsInt32 n = true) :
    decodeWrite .delay ((BitVec.ofInt 32 n).setWidth 64) = .setdelay n := by
  obtain ⟨hlo, hhi⟩ : -2147483648 ≤ n ∧ n ≤ 2147483647 := by simpa [fitsInt32] using h
  rw [decodeWrite, BitVec.extractLsb'_setWidth_of_le (by decide), BitVec.extractLsb'_eq_self,
    BitVec.toInt_ofInt_eq_self (by decide) hlo (by omega)]

/-- Settles O1: a transaction word gives back W, RN and DATA; the sequencer's eleven selectors are constants. -/
theorem decodeEncodeRoundTrip : Obligations.DecodeEncodeRoundTrip := by
  intro i hi
  cases i with
  | rdreg r => exact decode_hostWord_read r _
  | setmode m => cases m <;> exact decode_hostWord_write _ _
  | setdelay n => exact (decode_hostWord_write _ _).trans (congrArg _ (decodeWrite_delay hi))
  | nopwCtrl | start | abort | nopwStatus | setvscale | nopwInPos | nopwOutLen | nopwReserved =>
    exact decode_hostWord_write _ _
  | checkEcho | checkDmx | hdrCopy | echoInit | echoMix | echoEos | echoFlush | echoFlushend | hdrPatch | dmxPair
  | dmxEos => rfl

/-- Settles O2: eleven closed words, evaluated. -/
theorem knownWordsDecode : Obligations.KnownWordsDecode := by
  unfold Obligations.KnownWordsDecode
  decide

end Sys2Proof
end

section
/-! What a step runs (30_encoding.md R84, R90, R92): a transaction's operation, the operation the selector selects, or
nothing where the sequencer is quiescent. No step is refused. -/

namespace Sys2Proof.Machine

/-! ## Running what a turn fetches -/

theorem fetch_of_empty {s : State} (h : s.schedule = []) : fetch s = fetchSequencer s := by
  simp [fetch, h]

theorem fetch_of_turn {s : State} {turn : Turn} {rest : List Turn} (h : s.schedule = turn :: rest) :
    fetch s = fetchTurn turn { s with schedule := rest } := by
  rw [fetch_eq_fetchTurn, State.takeTurn, h]
  rfl

theorem step_of_run {s t : State} {i : Instr} (h : fetch s = .run i t) : step s = exec i t := by
  simp [step, h]

theorem step_of_settle {s t : State} (h : fetch s = .settle t) : step s = .next t := by
  simp [step, h]

theorem fetchSequencer_of_ok {s : State} {i : Instr} (h : decodeSeq s.selector = .ok i) :
    fetchSequencer s = .run i s := by
  simp [fetchSequencer, h]

theorem fetchSequencer_of_quiescent {s : State} (h : decodeSeq s.selector = .error .quiescent) :
    fetchSequencer s = .settle s := by
  simp [fetchSequencer, h]

/-- Settles O6: each kind of turn fetches the decoded operation. -/
theorem stepRunsTheDecodedOperation : Obligations.StepRunsTheDecodedOperation := by
  refine fun s i => ⟨fun ht rest hsched hi => ?transaction, fun rest hsched hi => ?sequencer, fun hsched hi => ?empty⟩
  case transaction => cases hi; exact step_of_run (fetch_of_turn hsched)
  case sequencer => exact step_of_run ((fetch_of_turn hsched).trans (fetchSequencer_of_ok hi))
  case empty => exact step_of_run ((fetch_of_empty hsched).trans (fetchSequencer_of_ok hi))

/-! ## Quiescence -/

theorem Phase.operation_of_quiescent {p : Phase} (h : p = .idle ∨ p = .done ∨ p = .fault) (m : Mode) (exh : Bool) :
    p.operation m exh = none := by
  obtain rfl | rfl | rfl := h <;> rfl

/-- Settles O7: no row has a quiescent phase, so nothing decodes and nothing is enabled. -/
theorem quiescentSequencerChangesNothing : Obligations.QuiescentSequencerChangesNothing := by
  intro s hp
  have hnone := Phase.operation_of_quiescent hp s.mode s.exh
  have hquiet : decodeSeq s.selector = .error .quiescent := by rw [decodeSeq_selector, hnone]; rfl
  refine ⟨hquiet, fun i hi => ?_, fun hsched => ?_, fun rest hsched => ?_⟩
  · refine Bool.eq_false_iff.mpr fun he => ?_
    cases hnone.symm.trans (State.operation_of_enables hi he)
  · exact step_of_settle ((fetch_of_empty hsched).trans (fetchSequencer_of_quiescent hquiet))
  · exact step_of_settle ((fetch_of_turn hsched).trans (fetchSequencer_of_quiescent hquiet))

/-! ## Refusals -/

theorem State.enables_of_host {i : Instr} (hi : i.format = .host) (s : State) : s.enables i = true := by
  cases i with
  | rdreg | nopwCtrl | start | abort | nopwStatus | setmode | setdelay | setvscale | nopwInPos | nopwOutLen
  | nopwReserved => rfl
  | _ => cases hi

/-- Past its guard an operation goes on or stops by a fault. -/
theorem whenEnabled_ne_refused {i : Instr} {s : State} {o : Host.Outcome State Fault Refusal}
    (he : s.enables i = true) (ho : ∀ r, o ≠ .refused r) (r : Refusal) : whenEnabled i s o ≠ .refused r := by
  rw [whenEnabled, if_pos he]
  exact ho r

theorem guarded_ne_refused {stop : Prop} [Decidable stop] {f : Fault} {t : State} (r : Refusal) :
    (if stop then .fault f else .next t : Host.Outcome State Fault Refusal) ≠ .refused r := by
  split <;> simp

theorem exec_ne_refused_of_enables {i : Instr} {s : State} (he : s.enables i = true) (r : Refusal) :
    exec i s ≠ .refused r := by
  cases i with
  | checkEcho | checkDmx | hdrCopy | echoInit | echoEos | echoFlushend | dmxPair | dmxEos =>
    exact whenEnabled_ne_refused he (by simp) r
  | echoMix | echoFlush | hdrPatch => exact whenEnabled_ne_refused he guarded_ne_refused r
  | _ => nofun

theorem fetchSequencer_cases (s : State) :
    (∃ i, s.enables i = true ∧ fetchSequencer s = .run i s) ∨ fetchSequencer s = .settle s := by
  cases hop : s.phase.operation s.mode s.exh with
  | none => exact .inr (fetchSequencer_of_quiescent (by rw [decodeSeq_selector, hop]; rfl))
  | some i =>
    exact .inl ⟨i, State.enables_of_operation hop, fetchSequencer_of_ok (decodeSeq_selector_eq_ok_iff.mpr hop)⟩

/-- What a turn fetches is an operation its state enables, or the turn settles: it is never stuck. -/
theorem fetchTurn_cases (turn : Turn) (s : State) :
    (∃ i, s.enables i = true ∧ fetchTurn turn s = .run i s) ∨ ∃ t, fetchTurn turn s = .settle t := by
  cases turn with
  | sequencer => exact (fetchSequencer_cases s).imp_right fun h => ⟨s, h⟩
  | transaction ht => exact .inl ⟨_, State.enables_of_host (decodeHost_format ht) s, rfl⟩
  | attach a => exact .inr ⟨_, rfl⟩
  | reset => exact .inr ⟨_, rfl⟩

/-- Settles O10: a step settles, or runs an operation that is enabled. -/
theorem stepIsNeverRefused : Obligations.StepIsNeverRefused := by
  intro s r
  obtain ⟨i, he, hrun⟩ | ⟨t, hsettle⟩ := fetchTurn_cases (s.schedule.headD .sequencer) s.takeTurn
  · rw [step_of_run ((fetch_eq_fetchTurn s).trans hrun)]
    exact exec_ne_refused_of_enables he r
  · rw [step_of_settle ((fetch_eq_fetchTurn s).trans hsettle)]
    simp

end Sys2Proof.Machine
end

section
/-! Samples in a byte stream (30_encoding.md R76, 20_memory.md R60). -/

namespace Sys2Proof.Machine

theorem le16_bytes16 (w : Sample) : le16 (w.extractLsb' 0 8) (w.extractLsb' 8 8) = w := by
  rw [le16, BitVec.extractLsb'_append_extractLsb'_eq_extractLsb' (by rfl : 8 = 0 + 8)]
  exact BitVec.extractLsb'_eq_self

/-- The word stored at an offset is the word read there, whatever stands around it. -/
theorem sampleAt_append_bytes16 (before after : List Byte) (w : Sample) :
    sampleAt (before ++ bytes16 w ++ after) before.length = w := by
  have hbytes : sampleAt (before ++ bytes16 w ++ after) before.length =
      le16 (w.extractLsb' 0 8) (w.extractLsb' 8 8) := by
    simp [sampleAt, bytes16]
  rw [hbytes, le16_bytes16]

/-- `enc16` keeps every int16. -/
theorem enc16_toInt {v : Int} (hlo : -32768 ≤ v) (hhi : v ≤ 32767) : (enc16 v).toInt = v :=
  BitVec.toInt_ofInt_eq_self (by decide) hlo (by omega)

/-- Settles O37: the bytes give back the stored word, and the word its value. -/
theorem sampleBytesReadBack : Obligations.SampleBytesReadBack := by
  intro v before after hlo hhi
  rw [sampleAt_append_bytes16, enc16_toInt hlo hhi]

end Sys2Proof.Machine
end

section
/-! The host operations (40_host_ops.md R100 to R118): each one's effect from its transaction word, what a register read
returns, and what none of them can do. -/

namespace Sys2Proof.Machine

/-! ## START and the configuration writes (R102, R104, R106, R108) -/

/-- An operation that takes effect in IDLE is ignored in full in every other phase (R100). -/
theorem exec_onlyInIdle {s t : State} {i : Instr} (hi : onlyInIdle i = true) (heff : s.phase = .idle → Executes s i t) :
    (s.phase = .idle → exec i s = .next t) ∧ (s.phase ≠ .idle → exec i s = .next s) :=
  ⟨fun hp => exec_next_iff.mpr (heff hp), fun hp => exec_next_iff.mpr (.ignored hi hp)⟩

/-- Settles O11: RN = 2 decodes to SETMODE of DATA[0]. -/
theorem setmodeEffect : Obligations.SetmodeEffect := by
  intro ht s hw hr
  obtain ⟨-, hwrite⟩ := hostOperandsComeFromTheirBits ht
  obtain ⟨-, -, hmode, -⟩ := hwrite hw
  exact ⟨hmode hr, exec_onlyInIdle rfl (.setmode _)⟩

/-- Settles O12: the register takes the bits of the value, which are DATA's own. -/
theorem setdelayEffect : Obligations.SetdelayEffect := by
  intro ht s hw hr
  obtain ⟨-, hwrite⟩ := hostOperandsComeFromTheirBits ht
  obtain ⟨-, -, -, hdelay, -⟩ := hwrite hw
  refine ⟨hdelay hr, exec_onlyInIdle rfl fun hp => ?_⟩
  have hstored := Executes.setdelay (ht.extractLsb' 0 32).toInt hp
  rwa [BitVec.ofInt_toInt] at hstored

/-- Settles O13: RN = 4 decodes to SETVSCALE of DATA. -/
theorem setvscaleEffect : Obligations.SetvscaleEffect := by
  intro ht s hw hr
  obtain ⟨-, hwrite⟩ := hostOperandsComeFromTheirBits ht
  obtain ⟨-, -, -, -, hvscale, -⟩ := hwrite hw
  exact ⟨hvscale hr, exec_onlyInIdle rfl (.setvscale _)⟩

/-- Settles O14: `beginRun` in IDLE, nothing elsewhere. -/
theorem startEffect : Obligations.StartEffect := fun _ => exec_onlyInIdle rfl .start

/-! ## ABORT and NOPW (R110, R112) -/

/-- Settles O15: DATA[1] of a write of CTRL decides for ABORT before DATA[0] is looked at. -/
theorem abortEffect : Obligations.AbortEffect := by
  intro ht s hw hr hbit
  obtain ⟨-, hwrite⟩ := hostOperandsComeFromTheirBits ht
  obtain ⟨hctrl, -⟩ := hwrite hw
  exact ⟨by rw [hctrl hr, if_pos hbit], exec_next_iff.mpr .abort⟩

theorem isNopw_iff_mem {i : Instr} :
    isNopw i = true ↔ i ∈ [.nopwCtrl, .nopwStatus, .nopwInPos, .nopwOutLen, .nopwReserved] := by
  cases i <;> simp [isNopw]

theorem exec_of_isNopw {i : Instr} (hi : isNopw i = true) (s : State) : exec i s = .next s :=
  exec_next_iff.mpr (.nopw hi)

/-- A bit of a field that is 0 is clear. -/
theorem getLsbD_eq_false_of_field {ht : HostWord} {n k : Nat} (h : ht.extractLsb' 0 n = 0#n) (hk : k < n) :
    ht.getLsbD k = false := by
  have hbit : (ht.extractLsb' 0 n).getLsbD k = false := by rw [h, BitVec.getLsbD_zero]
  simpa [hk] using hbit

/-- Which words are NOPW: a write of CTRL that asks for nothing, or of a register that is read-only or reserved. -/
theorem isNopw_decodeHost {ht : HostWord} (hw : ht.getLsbD 67 = true)
    (hform : (ht.extractLsb' 64 3 = 0#3 ∧ ht.extractLsb' 0 2 = 0#2) ∨ ht.extractLsb' 64 3 ∈ [1#3, 5#3, 6#3, 7#3]) :
    isNopw (decodeHost ht) = true := by
  obtain ⟨-, hwrite⟩ := hostOperandsComeFromTheirBits ht
  obtain ⟨hctrl, hstatus, -, -, -, hinPos, houtLen, hreserved⟩ := hwrite hw
  obtain ⟨hr, hdata⟩ | hr := hform
  · rw [hctrl hr, getLsbD_eq_false_of_field hdata (by decide), getLsbD_eq_false_of_field hdata (by decide)]
    rfl
  · obtain hr | hr | hr | hr : ht.extractLsb' 64 3 = 1#3 ∨ ht.extractLsb' 64 3 = 5#3 ∨ ht.extractLsb' 64 3 = 6#3 ∨
        ht.extractLsb' 64 3 = 7#3 := by simpa using hr
    · rw [hstatus hr]; rfl
    · rw [hinPos hr]; rfl
    · rw [houtLen hr]; rfl
    · rw [hreserved hr]; rfl

/-- Settles O16: such a word decodes to a form of NOPW, and every form leaves the state as it was. -/
theorem nopwHasNoEffect : Obligations.NopwHasNoEffect := by
  intro s
  refine ⟨fun ht hw hform => ?_, exec_of_isNopw rfl s, exec_of_isNopw rfl s, exec_of_isNopw rfl s,
    exec_of_isNopw rfl s, exec_of_isNopw rfl s⟩
  have hnopw := isNopw_decodeHost hw hform
  exact ⟨isNopw_iff_mem.mp hnopw, exec_of_isNopw hnopw s⟩

/-! ## RDREG (R114) -/

/-- The STATUS view: PHASE in bits 3:0, ERR in bits 7:4 (10_state.md R27). -/
theorem State.status_toNat (s : State) : s.status.toNat = 16 * s.err.code.toNat + s.phase.code.toNat := by
  have herr := s.err.code.isLt
  have hphase := s.phase.code.isLt
  rw [State.status, BitVec.toNat_setWidth, BitVec.toNat_append, ← Nat.shiftLeft_add_eq_or_of_lt hphase,
    Nat.shiftLeft_eq]
  omega

theorem modeWord_toNat (m : Mode) :
    ((BitVec.ofBool (modeBit m)).setWidth 64).toNat = if m = .downmix then 1 else 0 := by
  cases m <;> rfl

/-- DELAY is read zero-extended: its value modulo 2^32 (30_encoding.md R80). -/
theorem delayWord_toNat (d : Word32) : (d.setWidth 64).toNat = (d.toInt % 4294967296).toNat := by
  have hd := d.isLt
  rw [BitVec.toNat_setWidth, BitVec.toInt_eq_toNat_cond]
  split <;> omega

/-- Settles O17: the value stored in the model's field is the register's view. -/
theorem rdregReturnsTheRegister : Obligations.RdregReturnsTheRegister := by
  intro r s
  refine ⟨s.readReg r, exec_next_iff.mpr (.rdreg r), ?_⟩
  cases r with
  | ctrl | reserved | vscale => rfl
  | status => exact s.status_toNat
  | mode => exact modeWord_toNat s.mode
  | delay => exact delayWord_toNat s.delay
  | inPos | outLen => exact BitVec.toNat_ofNat ..

/-! ## What no host operation does (R100, R118) -/

/-- A host operation always completes (R100). -/
theorem exists_executes_of_host {i : Instr} (hi : i.format = .host) (s : State) : ∃ t, Executes s i t := by
  cases i with
  | rdreg r => exact ⟨_, .rdreg r⟩
  | nopwCtrl | nopwStatus | nopwInPos | nopwOutLen | nopwReserved => exact ⟨s, .nopw rfl⟩
  | start => exact ⟨_, executes_inIdle rfl .start⟩
  | abort => exact ⟨_, .abort⟩
  | setmode m => exact ⟨_, executes_inIdle (f := fun t => { t with mode := m }) rfl (.setmode m)⟩
  | setdelay n => exact ⟨_, executes_inIdle (f := fun t => { t with delay := BitVec.ofInt 32 n }) rfl (.setdelay n)⟩
  | setvscale v => exact ⟨_, executes_inIdle (f := fun t => { t with vscale := v }) rfl (.setvscale v)⟩
  | _ => cases hi

/-- Settles O18: START and ABORT alone write ERR and PHASE, and they clear the one and leave FAULT. -/
theorem hostOperationsNeverFault : Obligations.HostOperationsNeverFault := by
  intro i s hi
  obtain ⟨t, h⟩ := exists_executes_of_host hi s
  refine ⟨t, exec_next_iff.mpr h, ?_⟩
  cases h with
  | start => exact ⟨.inr rfl, nofun, rfl, rfl, rfl, Nat.zero_le _, fun hne => absurd rfl hne⟩
  | abort => exact ⟨.inr rfl, nofun, rfl, rfl, rfl, le_rfl, fun _ => ⟨rfl, rfl, rfl⟩⟩
  | rdreg | nopw | ignored | setmode | setdelay | setvscale =>
    exact ⟨.inl rfl, id, rfl, rfl, rfl, le_rfl, fun _ => ⟨rfl, rfl, rfl⟩⟩
  | _ => cases hi

/-- Settles O19: outside IDLE only ABORT and RDREG do anything. -/
theorem onlyAbortDisturbsABusyRun : Obligations.OnlyAbortDisturbsABusyRun := by
  intro i s hi habort hbusy
  have hidle := Phase.ne_idle_of_busy hbusy
  obtain ⟨t, h⟩ := exists_executes_of_host hi s
  rw [exec_next_iff.mpr h]
  cases h with
  | rdreg r => exact ⟨_, rfl⟩
  | nopw | ignored => exact ⟨s.hostRead, rfl⟩
  | start hp | setmode _ hp | setdelay _ hp | setvscale _ hp => exact absurd hp hidle
  | abort => exact absurd rfl habort
  | _ => cases hi

end Sys2Proof.Machine
end

section
/-! HDR.PATCH byte by byte (41_sequencer_header.md R130, 20_memory.md R58, 30_encoding.md R79): what an overwrite leaves
at each offset, which byte of a size field stands where, and so what each outcome of the operation leaves in OUT. -/

namespace Sys2Proof.Machine

/-! ## An overwrite, by offset (20_memory.md R58) -/

theorem getElem?_overlay_inside {out bs : List Byte} {off j : Nat} (ho : off ≤ out.length) (hj : j < bs.length) :
    (overlay out off bs)[off + j]? = bs[j]? := by
  have hlen : (out.take off).length = off := List.length_take_of_le ho
  rw [overlay, List.append_assoc, List.getElem?_append_right (by omega), hlen, Nat.add_sub_cancel_left,
    List.getElem?_append_left hj]

theorem getElem?_overlay_outside {out bs : List Byte} {off a : Nat} (ho : off ≤ out.length)
    (ha : ¬ (off ≤ a ∧ a < off + bs.length)) : (overlay out off bs)[a]? = out[a]? := by
  obtain hlow | hhigh : a < off ∨ off + bs.length ≤ a := by omega
  · rw [← List.getElem?_take_of_lt hlow, take_overlay le_rfl ho, List.getElem?_take_of_lt hlow]
  · rw [← Nat.add_sub_cancel' hhigh, ← List.getElem?_drop, drop_overlay le_rfl ho, List.getElem?_drop]

/-! ## A size field, by byte (30_encoding.md R79) -/

theorem extractLsb'_ofNat {w start len : Nat} (h : start + len ≤ w) (n : Nat) :
    (BitVec.ofNat w n).extractLsb' start len = BitVec.ofNat len (n / 2 ^ start) := by
  apply BitVec.eq_of_getLsbD_eq
  intro i hi
  have hw : start + i < w := by omega
  simp only [BitVec.getLsbD_extractLsb', BitVec.getLsbD_ofNat, Nat.testBit_div_two_pow, hi, hw, decide_true,
    Bool.true_and, Nat.add_comm]

theorem getElem?_sizeField {j : Nat} (hj : j < 4) (n : Nat) :
    (sizeField n)[j]? = some (BitVec.ofNat 8 (n / 256 ^ j)) := by
  have hbyte : (sizeField n)[j]? = some ((BitVec.ofNat 32 n).extractLsb' (8 * j) 8) := by
    interval_cases j <;> rfl
  rw [hbyte, extractLsb'_ofNat (by omega), Nat.pow_mul]

/-- The first `m` bytes of a size field, laid over OUT at `off`, stand there in order. -/
theorem getElem?_overlay_sizeField {out : List Byte} {off m j : Nat} (ho : off ≤ out.length) (hm : m ≤ 4) (hj : j < m)
    (n : Nat) : (overlay out off ((sizeField n).take m))[off + j]? = some (BitVec.ofNat 8 (n / 256 ^ j)) := by
  rw [getElem?_overlay_inside ho (by rw [List.length_take, sizeField_length]; omega), List.getElem?_take_of_lt hj,
    getElem?_sizeField (by omega)]

theorem getElem?_overlay_sizeField_outside {out : List Byte} {off m a : Nat} (ho : off ≤ out.length)
    (ha : ¬ (off ≤ a ∧ a < off + m)) (n : Nat) : (overlay out off ((sizeField n).take m))[a]? = out[a]? :=
  getElem?_overlay_outside ho (by rw [List.length_take]; omega)

theorem writtenOnFail_sizeField {k : Nat} (hk : k < 4) (n : Nat) :
    writtenOnFail k (sizeField n) = (sizeField n).take k :=
  writtenOnFail_eq_take k _ hk

/-! ## The outcomes of HDR.PATCH -/

/-- OUT with the first `m` bytes of the chunk-size field overwritten. -/
def riffPatched (out : List Byte) (m : Nat) : List Byte :=
  overlay out riffOff ((sizeField (out.length - 8)).take m)

/-- OUT with the whole chunk-size field and the first `m` bytes of the data-size field overwritten. -/
def bothPatched (out : List Byte) (m : Nat) : List Byte :=
  overlay (riffPatched out 4) dataOff ((sizeField (out.length - hdrSize)).take m)

theorem riffPatched_length {out : List Byte} (ho : 44 ≤ out.length) (m : Nat) :
    (riffPatched out m).length = out.length :=
  (sameButSizes_overlay_riff ho (List.length_take_le' _ _)).length

theorem bothPatched_length {out : List Byte} (ho : 44 ≤ out.length) (m : Nat) :
    (bothPatched out m).length = out.length :=
  (sameButSizes_overlay_both ho le_rfl (List.length_take_le' _ _)).length

/-- What stands where after the first overwrite, whole or torn. -/
theorem riffPatched_getElem? {out : List Byte} {m : Nat} (ho : 44 ≤ out.length) (hm : m ≤ 4) :
    (∀ j, j < m → (riffPatched out m)[4 + j]? = some (BitVec.ofNat 8 ((out.length - 8) / 256 ^ j))) ∧
    ∀ a, ¬ (4 ≤ a ∧ a < 4 + m) → (riffPatched out m)[a]? = out[a]? :=
  have hoff : 4 ≤ out.length := by omega
  ⟨fun _ hj => getElem?_overlay_sizeField hoff hm hj _, fun _ ha => getElem?_overlay_sizeField_outside hoff ha _⟩

/-- What stands where after the second overwrite, whole or torn: the fields do not overlap. -/
theorem bothPatched_getElem? {out : List Byte} {m : Nat} (ho : 44 ≤ out.length) (hm : m ≤ 4) :
    (∀ j, j < 4 → (bothPatched out m)[4 + j]? = some (BitVec.ofNat 8 ((out.length - 8) / 256 ^ j))) ∧
    (∀ j, j < m → (bothPatched out m)[40 + j]? = some (BitVec.ofNat 8 ((out.length - 44) / 256 ^ j))) ∧
    ∀ a, ¬ (4 ≤ a ∧ a < 8) → ¬ (40 ≤ a ∧ a < 40 + m) → (bothPatched out m)[a]? = out[a]? := by
  have hoff : 40 ≤ (riffPatched out 4).length := by rw [riffPatched_length ho]; omega
  obtain ⟨hriff, hframe⟩ := riffPatched_getElem? ho le_rfl
  have houtside {a : Nat} (ha : ¬ (40 ≤ a ∧ a < 40 + m)) : (bothPatched out m)[a]? = (riffPatched out 4)[a]? :=
    getElem?_overlay_sizeField_outside hoff ha _
  refine ⟨fun j hj => ?_, fun j hj => getElem?_overlay_sizeField hoff hm hj _, fun a ha ha' => ?_⟩
  · rw [houtside (by omega), hriff j hj]
  · rw [houtside ha', hframe a ha]

/-- Settles O23: both fields are written whole. -/
theorem hdrPatchRewritesTheSizes : Obligations.HdrPatchRewritesTheSizes := by
  intro s hp ho ha hb
  refine ⟨decodeSeq_selector_eq_ok_iff.mpr (by rw [hp]; rfl), _, exec_next_iff.mpr (.patched hp ho ha hb), rfl, ?_⟩
  exact ⟨bothPatched_length ho 4, bothPatched_getElem? ho le_rfl⟩

/-- Settles O24: the failing overwrite leaves the first `k` bytes of its field. -/
theorem hdrPatchFailure : Obligations.HdrPatchFailure := by
  intro s k hp ho hk
  constructor
  · intro ha
    have hexec := Executes.riffTorn k hp ho ha
    rw [writtenOnFail_sizeField hk] at hexec
    exact ⟨_, exec_next_iff.mpr hexec, rfl, riffPatched_getElem? ho hk.le⟩
  · intro ha hb
    have hexec := Executes.dataTorn k hp ho ha hb
    rw [writtenOnFail_sizeField hk] at hexec
    exact ⟨_, exec_next_iff.mpr hexec, rfl, bothPatched_getElem? ho hk.le⟩

end Sys2Proof.Machine
end

section
/-! The phase graph (41_sequencer_header.md R119), and what a sequencer operation is outside it (R120). -/

namespace Sys2Proof.Machine

theorem phaseEdge_self_of_isNopw {i : Instr} (hi : isNopw i = true) (p : Phase) : phaseEdge i p p = true := by
  cases i with
  | nopwCtrl | nopwStatus | nopwInPos | nopwOutLen | nopwReserved => exact beq_self_eq_true p
  | _ => cases hi

theorem phaseEdge_self_of_onlyInIdle {i : Instr} (hi : onlyInIdle i = true) {p : Phase} (hp : p ≠ .idle) :
    phaseEdge i p p = true := by
  cases i with
  | start => rw [phaseEdge, if_neg hp, beq_self_eq_true]
  | setmode | setdelay | setvscale => exact beq_self_eq_true p
  | _ => cases hi

/-- Each outcome of each operation is one edge of the graph. -/
theorem Executes.phaseEdge {s t : State} {i : Instr} (h : Executes s i t) : phaseEdge i s.phase t.phase = true := by
  cases h with
  | nopw hi => exact phaseEdge_self_of_isNopw hi _
  | ignored hi hp => exact phaseEdge_self_of_onlyInIdle hi hp
  | rdreg | setmode | setdelay | setvscale => exact beq_self_eq_true s.phase
  | abort => rfl
  | headerCopied hp => rw [hp]; cases s.mode <;> rfl
  | mixed hp | flushed hp | paired hp => exact hp ▸ rfl
  | start hp | echoRejected _ hp | echoAccepted hp | dmxAccepted hp | headerShort hp | headerTorn _ hp | lineCleared hp
  | mixTorn _ hp | echoEnded hp | flushTorn _ hp | flushEnded hp | riffTorn _ hp | dataTorn _ hp | patched hp
  | pairTorn _ hp | dmxEnded hp => rw [hp]; rfl

/-- Settles O35: what `exec` answers is an outcome of `Executes`. -/
theorem phaseFollowsTheGraph : Obligations.PhaseFollowsTheGraph := fun _ _ _ h => (exec_next_iff.mp h).phaseEdge

/-- Every sequencer operation stands behind the guard of R120. -/
theorem exec_eq_whenEnabled {i : Instr} (hi : i.format = .seq) (s : State) : ∃ o, exec i s = whenEnabled i s o := by
  cases i with
  | checkEcho | checkDmx | hdrCopy | echoInit | echoMix | echoEos | echoFlush | echoFlushend | hdrPatch | dmxPair
  | dmxEos => exact ⟨_, rfl⟩
  | _ => cases hi

/-- Settles O9: the guard refuses whatever the effect would be. -/
theorem disabledOperationIsRefused : Obligations.DisabledOperationIsRefused := by
  intro s i hi hdisabled
  obtain ⟨o, hguarded⟩ := exec_eq_whenEnabled hi s
  rw [hguarded, whenEnabled, hdisabled]
  rfl

end Sys2Proof.Machine
end

section
/-! The start of a run: the checks and the header copy, by outcome (41_sequencer_header.md R121, R123, R125). -/

namespace Sys2Proof.Machine

/-! ## CHECK (R121, R123) -/

/-- Exponent and fraction together are the bits below the sign (30_encoding.md R81). -/
theorem f64IsZero_iff (v : Word64) : f64IsZero v = true ↔ v.extractLsb' 0 63 = 0#63 := by
  have hexp : f64Exp v = v.toNat / 2 ^ 52 % 2 ^ 11 := by
    rw [f64Exp, BitVec.extractLsb'_toNat, Nat.shiftRight_eq_div_pow]
  have hfrac : f64Frac v = v.toNat % 2 ^ 52 := by rw [f64Frac, BitVec.extractLsb'_toNat, Nat.shiftRight_zero]
  have hlow : v.extractLsb' 0 63 = 0#63 ↔ v.toNat % 2 ^ 63 = 0 := by
    rw [BitVec.toNat_eq, BitVec.extractLsb'_toNat, Nat.shiftRight_zero, BitVec.toNat_zero]
  rw [f64IsZero, Bool.and_eq_true, beq_iff_eq, beq_iff_eq, hexp, hfrac, hlow]
  omega

theorem f64Finite_eq_false_iff (v : Word64) : f64Finite v = false ↔ v.extractLsb' 52 11 = 2047#11 := by
  simp [f64Finite, f64Exp, BitVec.toNat_eq]

/-- The two ways a divisor is illegal in the default format (10_state.md R26). -/
theorem vscaleLegal_eq_false_iff (v : Word64) :
    vscaleLegal v = false ↔ v.extractLsb' 52 11 = 2047#11 ∨ v.extractLsb' 0 63 = 0#63 := by
  rw [← f64Finite_eq_false_iff, ← f64IsZero_iff, vscaleLegal, Bool.and_eq_false_iff, Bool.not_eq_false']

/-- Settles O20: the effect's tests are R121's in its order, and a gain unit without verdicts accepts what binary64
does. -/
theorem checkEchoEffect : Obligations.CheckEchoEffect := by
  intro s hp hm
  refine ⟨decodeSeq_selector_eq_ok_iff.mpr (by rw [hp, hm]; rfl), exec_next_iff.mpr (executes_checkEcho hp hm), ?_⟩
  intro hverdicts
  rw [s.gain.accepts_of_no_verdicts hverdicts]
  exact vscaleLegal_eq_false_iff s.vscale

/-- Settles O21: MODE selects the operation, which has one outcome. -/
theorem checkDmxEffect : Obligations.CheckDmxEffect := fun _ hp hm =>
  ⟨decodeSeq_selector_eq_ok_iff.mpr (by rw [hp, hm]; rfl), exec_next_iff.mpr (.dmxAccepted hp hm)⟩

/-! ## HDR.COPY (R125) -/

theorem firstPhaseOf_eq_ite (m : Mode) : firstPhaseOf m = if m = .echo then .echoInit else .dmxRun := by
  cases m <;> rfl

theorem State.le_inAvail_iff {s : State} {n : Nat} (hn : 0 < n) : n ≤ s.inAvail ↔ s.inPos + n ≤ s.input.length := by
  rw [State.inAvail]
  omega

/-- A torn write of bytes IN can serve leaves the first `k` of them (20_memory.md R57). -/
theorem writtenOnFail_inBytes {s : State} {n k : Nat} (hin : n ≤ s.inAvail) (hk : k < n) :
    writtenOnFail k (s.inBytes n) = (s.input.drop s.inPos).take k := by
  have hlen : (s.inBytes n).length = n := by
    rw [State.inBytes, List.length_take, List.length_drop]
    exact Nat.min_eq_left hin
  rw [writtenOnFail_eq_take k _ (by rw [hlen]; exact hk), State.inBytes, List.take_take, Nat.min_eq_left hk.le]

/-- Settles O22: too few bytes, a copied header, and a torn one. -/
theorem hdrCopyEffect : Obligations.HdrCopyEffect := by
  intro s hp
  have havail : hdrSize ≤ s.inAvail ↔ s.inPos + 44 ≤ s.input.length := State.le_inAvail_iff (by decide)
  refine ⟨decodeSeq_selector_eq_ok_iff.mpr (by rw [hp]; rfl), fun hshort => ?_, fun hin ha => ?_, fun hin k hk ha => ?_⟩
  · exact exec_next_iff.mpr (.headerShort hp (Nat.lt_of_not_le (mt havail.mp (Nat.not_le.mpr hshort))))
  · have hexec := Executes.headerCopied hp (havail.mpr hin) ha
    rw [firstPhaseOf_eq_ite] at hexec
    exact exec_next_iff.mpr hexec
  · have hexec := Executes.headerTorn k hp (havail.mpr hin) ha
    rw [writtenOnFail_inBytes (havail.mpr hin) hk] at hexec
    exact exec_next_iff.mpr hexec

end Sys2Proof.Machine
end

section
/-! The echo mixer's operations, by outcome (42_echo.md R145, R153, R157, R160, R165). -/

namespace Sys2Proof.Machine

/-! ## ECHO.INIT (R145) -/

/-- Settles O25: the entries below DELAY leave the list, and an unlisted entry reads 0. -/
theorem echoInitZeroesTheLine : Obligations.EchoInitZeroesTheLine := by
  intro s hp
  refine ⟨decodeSeq_selector_eq_ok_iff.mpr (by rw [hp]; rfl), _, exec_next_iff.mpr (.lineCleared hp), rfl, fun i => ?_⟩
  have hinUse : i < s.delayNat ↔ (i : Int) < s.delay.toInt := by rw [State.delayNat]; omega
  exact (Memory.read_zeroBelow ..).trans (if_congr hinUse rfl rfl)

/-! ## ECHO.MIX (R153) -/

/-- A torn write of a sample leaves its first byte or nothing (20_memory.md R57). -/
theorem writtenOnFail_sampleBytes {k : Nat} (hk : k < 2) (v : Int) :
    writtenOnFail k (sampleBytes v) = (sampleBytes v).take k :=
  writtenOnFail_eq_take k _ hk

theorem State.idxInLine_of_lt {s : State} (hidx : s.idx < s.delayNat) (hpresent : s.idx < s.delayMax) :
    s.idxInLine = true := by
  simp [State.idxInLine, hidx, hpresent]

/-- Where IN holds a byte two places on, the sequencer does not take it for exhausted. -/
theorem State.exh_eq_false_of_next {s : State} {b1 : Byte} (hp : s.phase = .echoRun)
    (h1 : s.input[s.inPos + 1]? = some b1) : s.exh = false := by
  obtain ⟨hlt, -⟩ := List.getElem?_eq_some_iff.mp h1
  rw [State.exh_echoRun hp, decide_eq_false_iff_not, State.inAvail]
  omega

/-- The next two bytes of IN, the first the less significant (20_memory.md R60). -/
theorem State.nextSample_of_bytes {s : State} {b0 b1 : Byte} (h0 : s.input[s.inPos]? = some b0)
    (h1 : s.input[s.inPos + 1]? = some b1) : s.nextSample = b1 ++ b0 := by
  rw [State.nextSample, State.inBytes, sampleAt_window _ _ (by omega), Nat.add_zero, sampleAt,
    List.getD_eq_getElem?_getD, List.getD_eq_getElem?_getD, h0, h1]
  rfl

/-- Settles O26: the two bytes make the raw sample, and a write to the line changes the entry at IDX alone. -/
theorem echoMixEmitsAndStores : Obligations.EchoMixEmitsAndStores := by
  intro s b0 b1 hp h0 h1 hwf hidx hpresent ha
  have hx := State.exh_eq_false_of_next hp h1
  have hexec := Executes.mixed hp hx (State.idxInLine_of_lt hidx hpresent) ha
  rw [State.mixedSample, State.nextSample_of_bytes h0 h1] at hexec
  refine ⟨decodeSeq_selector_eq_ok_iff.mpr (by rw [hp, hx]; rfl), _, exec_next_iff.mpr hexec, rfl, fun i => ?_⟩
  exact Memory.read_write _ hwf ..

/-- Settles O27: the sample is consumed before the sink is asked, and a fault leaves the line alone. -/
theorem echoMixSinkFailure : Obligations.EchoMixSinkFailure := by
  intro s b0 b1 k hp h0 h1 hidx hpresent hk ha
  have hexec := Executes.mixTorn k hp (State.exh_eq_false_of_next hp h1) (State.idxInLine_of_lt hidx hpresent) ha
  rw [writtenOnFail_sampleBytes hk, State.mixedSample, State.nextSample_of_bytes h0 h1] at hexec
  exact exec_next_iff.mpr hexec

/-! ## ECHO.EOS (R157) -/

/-- Settles O28: with fewer than two bytes left, the stray byte, if there is one, is the last. -/
theorem echoEosEffect : Obligations.EchoEosEffect := by
  intro s hp hbound hshort
  have hx : s.exh = true := by
    rw [State.exh_echoRun hp, decide_eq_true_eq, State.inAvail]
    omega
  have hend : s.inPos + (if s.inAvail = 1 then 1 else 0) = s.input.length := by
    rw [State.inAvail]
    split <;> omega
  have hexec := Executes.echoEnded hp hx
  rw [hend] at hexec
  exact ⟨decodeSeq_selector_eq_ok_iff.mpr (by rw [hp, hx]; rfl), exec_next_iff.mpr hexec⟩

/-! ## ECHO.FLUSH and ECHO.FLUSHEND (R160, R165) -/

/-- Settles O29: the two outcomes of the write of a tail sample. -/
theorem echoFlushEffect : Obligations.EchoFlushEffect := by
  intro s hp hcount hidx hpresent
  have hx : s.exh = false := by rw [State.exh_echoFlush hp, decide_eq_false_iff_not]; omega
  have hline := State.idxInLine_of_lt hidx hpresent
  refine ⟨decodeSeq_selector_eq_ok_iff.mpr (by rw [hp, hx]; rfl), fun ha => ?_, fun k hk ha => ?_⟩
  · exact exec_next_iff.mpr (.flushed hp hx hline ha)
  · have hexec := Executes.flushTorn k hp hx hline ha
    rw [writtenOnFail_sampleBytes hk] at hexec
    exact exec_next_iff.mpr hexec

/-- Settles O30: a full flush count is what EXH tests in ECHO_FLUSH. -/
theorem echoFlushendEffect : Obligations.EchoFlushendEffect := by
  intro s hp hcount
  have hx : s.exh = true := by rw [State.exh_echoFlush hp, decide_eq_true_eq]; exact hcount
  exact ⟨decodeSeq_selector_eq_ok_iff.mpr (by rw [hp, hx]; rfl), exec_next_iff.mpr (.flushEnded hp hx)⟩

end Sys2Proof.Machine
end

section
/-! Rounding to the nearest binary64 (42_echo.md R150): where every finite value stands relative to a last place, what
integer rounding answers, and so that the default division gives the finite value nearest the exact quotient. -/

namespace Sys2Proof.Machine

/-! ## Magnitudes, by exponent (30_encoding.md R81) -/

theorem f64Frac_lt (v : Word64) : f64Frac v < 2 ^ 52 := (v.extractLsb' 0 52).isLt

theorem f64Exp_lt (v : Word64) : f64Exp v < 2048 := (v.extractLsb' 52 11).isLt

theorem f64Finite_iff {v : Word64} : f64Finite v = true ↔ f64Exp v ≤ 2046 := by
  have := f64Exp_lt v
  rw [f64Finite, bne_iff_ne]
  omega

theorem f64Magnitude_lt (e : Nat) {f : Nat} (hf : f < 2 ^ 52) : f64Magnitude e f < 2 ^ 52 * 2 ^ e := by
  cases e with
  | zero => simpa [f64Magnitude] using hf
  | succ e =>
    rw [f64Magnitude, if_neg e.succ_ne_zero, Nat.add_sub_cancel, pow_succ 2 e, mul_comm (2 ^ e), ← mul_assoc]
    exact Nat.mul_lt_mul_of_pos_right (by omega) (Nat.two_pow_pos e)

theorem le_f64Magnitude_of_lt {p e : Nat} (h : p < e) (f : Nat) : 2 ^ 52 * 2 ^ p ≤ f64Magnitude e f := by
  rw [f64Magnitude, if_neg (by omega)]
  exact Nat.mul_le_mul (Nat.le_add_right ..) (Nat.pow_le_pow_right two_pos (by omega))

/-- The magnitude grows with the pattern: a fraction never reaches the next exponent. -/
theorem f64Magnitude_mono {e e' f f' : Nat} (hf : f < 2 ^ 52) (h : e < e' ∨ (e = e' ∧ f ≤ f')) :
    f64Magnitude e f ≤ f64Magnitude e' f' := by
  obtain hlt | ⟨rfl, hff⟩ := h
  · exact (f64Magnitude_lt e hf).le.trans (le_f64Magnitude_of_lt hlt f')
  · unfold f64Magnitude
    split
    · exact hff
    · exact Nat.mul_le_mul_right _ (Nat.add_le_add_left hff _)

theorem f64Mag_le_of_f64Exp_le {v : Word64} {e : Nat} (h : f64Exp v ≤ e + 1) : f64Mag v ≤ (2 ^ 53 - 1) * 2 ^ e := by
  have hfrac := f64Frac_lt v
  have hle : f64Mag v ≤ f64Magnitude (e + 1) (2 ^ 52 - 1) := f64Magnitude_mono hfrac (by omega)
  rwa [f64Magnitude, if_neg e.succ_ne_zero, Nat.add_sub_cancel] at hle

/-- A value is a whole number of units of 2^`s`, or lies below every significand that has its leading bit at `s`. -/
theorem f64Mag_multiple_or_below (v : Word64) (s : Nat) :
    (∃ j, f64Mag v = j * 2 ^ s) ∨ (0 < s ∧ f64Mag v < 2 ^ 52 * 2 ^ s) := by
  obtain rfl | hs := s.eq_zero_or_pos
  · exact .inl ⟨f64Mag v, by rw [pow_zero, mul_one]⟩
  obtain hlt | hle := Nat.lt_or_ge s (f64Exp v)
  · have hdvd : 2 ^ s ∣ f64Mag v := by
      rw [f64Mag, f64Magnitude, if_neg (by omega)]
      exact (pow_dvd_pow 2 (by omega)).mul_left _
    exact .inl (exists_eq_mul_left_of_dvd hdvd)
  · have hpow : 2 ^ 52 * 2 ^ f64Exp v ≤ 2 ^ 52 * 2 ^ s := Nat.mul_le_mul_left _ (Nat.pow_le_pow_right two_pos hle)
    exact .inr ⟨hs, (f64Magnitude_lt _ (f64Frac_lt v)).trans_le hpow⟩

/-! ## Rounding to an integer -/

/-- The rounded integer is at most half a unit off, and even where it is half a unit off. -/
theorem divNearestEven_spec (n : Nat) {d : Nat} (hd : 0 < d) :
    2 * (divNearestEven n d * d) ≤ 2 * n + d ∧ 2 * n ≤ 2 * (divNearestEven n d * d) + d ∧
      (2 * (divNearestEven n d * d) = 2 * n + d ∨ 2 * n = 2 * (divNearestEven n d * d) + d →
        divNearestEven n d % 2 = 0) := by
  have hdiv : n / d * d + n % d = n := Nat.div_add_mod' n d
  have hmod : n % d < d := Nat.mod_lt n hd
  simp only [divNearestEven]
  split
  · rw [Nat.add_mul, Nat.one_mul]
    omega
  · omega

theorem divNearestEven_mono {n n' d : Nat} (hd : 0 < d) (h : n ≤ n') : divNearestEven n d ≤ divNearestEven n' d := by
  obtain ⟨hover, -, -⟩ := divNearestEven_spec n hd
  obtain ⟨-, hunder, -⟩ := divNearestEven_spec n' hd
  by_contra hlt
  have hstep : (divNearestEven n' d + 1) * d ≤ divNearestEven n d * d := Nat.mul_le_mul_right d (by omega)
  rw [Nat.add_mul, Nat.one_mul] at hstep
  obtain rfl : n = n' := by omega
  exact hlt le_rfl

/-- No integer is nearer, and where another is as near the rounded one is even. -/
theorem divNearestEven_nearest (n : Nat) {d : Nat} (hd : 0 < d) (j : Nat) :
    ((divNearestEven n d * d : Nat) - n : Int).natAbs ≤ ((j * d : Nat) - n : Int).natAbs ∧
      (((divNearestEven n d * d : Nat) - n : Int).natAbs = ((j * d : Nat) - n : Int).natAbs →
        j ≠ divNearestEven n d → divNearestEven n d % 2 = 0) := by
  obtain ⟨hover, hunder, htie⟩ := divNearestEven_spec n hd
  obtain hlt | rfl | hgt := lt_trichotomy j (divNearestEven n d)
  · have hstep : (j + 1) * d ≤ divNearestEven n d * d := Nat.mul_le_mul_right d hlt
    rw [Nat.add_mul, Nat.one_mul] at hstep
    exact ⟨by omega, fun heq _ => htie (by omega)⟩
  · exact ⟨le_rfl, fun _ hne => absurd rfl hne⟩
  · have hstep : (divNearestEven n d + 1) * d ≤ j * d := Nat.mul_le_mul_right d hgt
    rw [Nat.add_mul, Nat.one_mul] at hstep
    exact ⟨by omega, fun heq _ => htie (by omega)⟩

/-! ## The last place of a quotient -/

/-- The exponent of the last place of a quotient of `n` by `d` units: 53 significant bits, and at least one unit. -/
def lastPlace (n d : Nat) : Nat := Nat.log2 (n / d) - 52

/-- The significand of a quotient of `n` by `d` units: the quotient in units of its last place, rounded. -/
def roundedSignificand (n d : Nat) : Nat := divNearestEven n (d * 2 ^ lastPlace n d)

theorem f64NearestBits_eq (num den : Nat) :
    f64NearestBits num den =
      min (lastPlace (num * f64One) den * 2 ^ 52 + roundedSignificand (num * f64One) den) f64InfBits := rfl

theorem lastPlace_mono {n n' : Nat} (d : Nat) (h : n ≤ n') : lastPlace n d ≤ lastPlace n' d := by
  rw [lastPlace, lastPlace, Nat.log2_eq_log_two, Nat.log2_eq_log_two]
  exact Nat.sub_le_sub_right (Nat.log_mono_right (Nat.div_le_div_right h)) 52

/-- Above the smallest last place the leading bit of the significand is set. -/
theorem lastPlace_lower {n d : Nat} (h : 0 < lastPlace n d) : 2 ^ 52 * (d * 2 ^ lastPlace n d) ≤ n := by
  have hlog : 52 + lastPlace n d ≤ Nat.log2 (n / d) := by unfold lastPlace at h ⊢; omega
  have hq : n / d ≠ 0 := fun h0 => by rw [h0, Nat.log2_zero] at hlog; omega
  have hle : 2 ^ (52 + lastPlace n d) * d ≤ n :=
    (Nat.mul_le_mul_right d ((Nat.le_log2 hq).mp hlog)).trans (Nat.div_mul_le_self n d)
  rwa [pow_add, mul_assoc, mul_comm _ d] at hle

/-- A quotient is below 2^53 units of its last place. -/
theorem lastPlace_upper (n : Nat) {d : Nat} (hd : 0 < d) : n < 2 ^ 53 * (d * 2 ^ lastPlace n d) := by
  have hlog : Nat.log2 (n / d) + 1 ≤ 53 + lastPlace n d := by unfold lastPlace; omega
  have hlt : n / d < 2 ^ (53 + lastPlace n d) :=
    Nat.lt_log2_self.trans_le (Nat.pow_le_pow_right two_pos hlog)
  have hmul := (Nat.div_lt_iff_lt_mul hd).mp hlt
  rwa [pow_add, mul_assoc, mul_comm _ d] at hmul

/-- The rounded significand has 53 bits, or has carried into 2^53, with the leading bit set unless the last place is the
smallest. -/
theorem roundedSignificand_bounds (n : Nat) {d : Nat} (hd : 0 < d) :
    roundedSignificand n d ≤ 2 ^ 53 ∧ (lastPlace n d = 0 ∨ 2 ^ 52 ≤ roundedSignificand n d) := by
  have hunit : 0 < d * 2 ^ lastPlace n d := Nat.mul_pos hd (Nat.two_pow_pos _)
  constructor
  · have hmono := divNearestEven_mono hunit (lastPlace_upper n hd).le
    rwa [divNearestEven_mul_right _ hunit] at hmono
  · refine (Nat.eq_zero_or_pos _).imp_right fun hpos => ?_
    have hmono := divNearestEven_mono hunit (lastPlace_lower hpos)
    rwa [divNearestEven_mul_right _ hunit] at hmono

/-! ## The nearest value (42_echo.md R150) -/

/-- The rounded quotient, in units. -/
def roundedUnits (n d : Nat) : Nat := roundedSignificand n d * 2 ^ lastPlace n d

theorem roundedUnits_mul (n d : Nat) : roundedUnits n d * d = roundedSignificand n d * (d * 2 ^ lastPlace n d) := by
  rw [roundedUnits, mul_assoc, mul_comm (2 ^ _)]

/-- No binary64 value is nearer the quotient than the rounded one, and where another is as near the significand is
even. -/
theorem roundedUnits_nearest (n : Nat) {d : Nat} (hd : 0 < d) (m : Word64) :
    ((roundedUnits n d * d : Nat) - n : Int).natAbs ≤ ((f64Mag m * d : Nat) - n : Int).natAbs ∧
      (((roundedUnits n d * d : Nat) - n : Int).natAbs = ((f64Mag m * d : Nat) - n : Int).natAbs →
        f64Mag m ≠ roundedUnits n d → roundedSignificand n d % 2 = 0) := by
  have hunit : 0 < d * 2 ^ lastPlace n d := Nat.mul_pos hd (Nat.two_pow_pos _)
  rw [roundedUnits_mul]
  obtain ⟨j, hj⟩ | ⟨hpos, hbelow⟩ := f64Mag_multiple_or_below m (lastPlace n d)
  · obtain ⟨hle, htie⟩ := divNearestEven_nearest n hunit j
    have hmul : f64Mag m * d = j * (d * 2 ^ lastPlace n d) := by rw [hj, mul_assoc, mul_comm (2 ^ _)]
    rw [hmul]
    exact ⟨hle, fun heq hne => htie heq fun hjk => hne (by rw [hj, hjk]; rfl)⟩
  · obtain ⟨hle, -⟩ := divNearestEven_nearest n hunit (2 ^ 52)
    have hlead := lastPlace_lower hpos
    have hlt : f64Mag m * d < 2 ^ 52 * (d * 2 ^ lastPlace n d) := by
      rw [mul_comm d, ← mul_assoc]
      exact Nat.mul_lt_mul_of_pos_right hbelow hd
    have hstrict : ((roundedSignificand n d * (d * 2 ^ lastPlace n d) : Nat) - n : Int).natAbs <
        ((f64Mag m * d : Nat) - n : Int).natAbs := by
      unfold roundedSignificand
      omega
    exact ⟨hstrict.le, fun heq => absurd heq hstrict.ne⟩

/-- A greater last place weighs at least twice as much. -/
theorem two_mul_unit_le (d : Nat) {p s : Nat} (h : p < s) : 2 * (d * 2 ^ p) ≤ d * 2 ^ s := by
  rw [mul_left_comm, ← pow_succ']
  exact Nat.mul_le_mul_left d (Nat.pow_le_pow_right two_pos h)

/-- A quotient whose last place is above 2^`p`, or whose significand carries out of that place, exceeds every magnitude
of 53 bits at 2^`p`. -/
theorem lt_of_last_place_above {n d p M : Nat} (hd : 0 < d) (hM : M ≤ (2 ^ 53 - 1) * 2 ^ p)
    (h : p < lastPlace n d ∨ (lastPlace n d = p ∧ roundedSignificand n d = 2 ^ 53)) : M * d < n := by
  have hunit : 0 < d * 2 ^ p := Nat.mul_pos hd (Nat.two_pow_pos p)
  have hmax : M * d ≤ (2 ^ 53 - 1) * (d * 2 ^ p) := by
    rw [mul_left_comm, mul_comm M]
    exact Nat.mul_le_mul_left d hM
  obtain hgt | ⟨rfl, hcarry⟩ := h
  · have hlead := lastPlace_lower (Nat.zero_lt_of_lt hgt)
    have hdouble := two_mul_unit_le d hgt
    omega
  · obtain ⟨hround, -, -⟩ := divNearestEven_spec n hunit
    rw [← roundedSignificand, hcarry] at hround
    omega

/-- Where the rounded quotient is past every finite value, the exact quotient is too. -/
theorem lt_of_roundedUnits_overflow {n d : Nat} (hd : 0 < d)
    (hover : f64InfBits ≤ lastPlace n d * 2 ^ 52 + roundedSignificand n d) {m : Word64} (hm : f64Finite m = true) :
    f64Mag m * d < n := by
  rw [f64InfBits] at hover
  obtain ⟨hk, -⟩ := roundedSignificand_bounds n hd
  exact lt_of_last_place_above (p := 2045) hd (f64Mag_le_of_f64Exp_le (f64Finite_iff.mp hm)) (by omega)

/-! ## The default division -/

theorem f64Mag_pos {v : Word64} (h : f64IsZero v = false) : 0 < f64Mag v := by
  rw [f64Mag, f64Magnitude]
  split
  next hexp =>
    have hfrac : f64Frac v ≠ 0 := by simpa [f64IsZero, hexp] using h
    exact Nat.pos_of_ne_zero hfrac
  next => exact Nat.mul_pos (Nat.add_pos_left (Nat.two_pow_pos 52) _) (Nat.two_pow_pos _)

/-- Where R150 calls it, the default rounds the quotient of the magnitudes and gives it the quotient's sign. -/
theorem f64Div_of_finite {a b : Word64} (ha : f64Finite a = true) (hb : f64Finite b = true)
    (hz : f64IsZero b = false) :
    f64Div a b = f64OfBits (f64Sign a != f64Sign b) (f64NearestBits (f64Mag a) (f64Mag b)) := by
  rw [f64Finite, bne_iff_ne] at ha hb
  simp [f64Div, f64IsNaN, f64IsInf, ha, hb, hz]

theorem f64NearestBits_le (num den : Nat) : f64NearestBits num den ≤ f64InfBits := Nat.min_le_right _ _

/-- Up to the bits of an infinity no pattern is a NaN. -/
theorem f64IsNaN_f64OfBits (neg : Bool) {bits : Nat} (h : bits ≤ f64InfBits) :
    f64IsNaN (f64OfBits neg bits) = false := by
  rw [f64InfBits] at h
  rw [f64IsNaN, f64Exp_f64OfBits neg (by omega), f64Frac_f64OfBits, Bool.and_eq_false_iff, beq_eq_false_iff_ne,
    bne_eq_false_iff_eq]
  omega

theorem f64Finite_f64OfBits_iff (neg : Bool) {bits : Nat} (h : bits ≤ f64InfBits) :
    f64Finite (f64OfBits neg bits) = true ↔ bits < f64InfBits := by
  refine ⟨fun hfin => ?_, f64Finite_f64OfBits neg⟩
  rw [f64InfBits] at h ⊢
  rw [f64Finite_iff, f64Exp_f64OfBits neg (by omega)] at hfin
  omega

/-- A finite rounded quotient: the pattern holds the significand at the last place. -/
theorem f64OfBits_nearestBits_finite (neg : Bool) {num den : Nat} (hden : 0 < den)
    (h : f64Finite (f64OfBits neg (f64NearestBits num den)) = true) :
    f64Mag (f64OfBits neg (f64NearestBits num den)) = roundedUnits (num * f64One) den ∧
      f64Frac (f64OfBits neg (f64NearestBits num den)) % 2 = roundedSignificand (num * f64One) den % 2 := by
  obtain ⟨hk, hnormal⟩ := roundedSignificand_bounds (num * f64One) hden
  have hfits := (f64Finite_f64OfBits_iff neg (f64NearestBits_le num den)).mp h
  rw [f64NearestBits_eq, min_lt_iff, or_iff_left (lt_irrefl _)] at hfits
  rw [f64NearestBits_eq, min_eq_left hfits.le, f64Frac_f64OfBits]
  exact ⟨f64Mag_f64OfBits_shifted neg hk hnormal hfits, by omega⟩

/-- Settles O39: a finite result is the rounded quotient in units, and an overflow is past every finite value. -/
theorem gainDivisionIsNearestEven : Obligations.GainDivisionIsNearestEven := by
  intro a b ha hb hz
  have hpos := f64Mag_pos hz
  rw [GainUnit.binary64_fdiv, f64Div_of_finite ha hb hz]
  refine ⟨f64IsNaN_f64OfBits _ (f64NearestBits_le _ _), f64Sign_f64OfBits _ _, fun hfin m _ => ?finite,
    fun hinf m hm => ?overflow⟩
  case finite =>
    obtain ⟨hmag, hfrac⟩ := f64OfBits_nearestBits_finite _ hpos hfin
    rw [hmag, hfrac]
    exact roundedUnits_nearest _ hpos m
  case overflow =>
    have hbits := mt (f64Finite_f64OfBits_iff _ (f64NearestBits_le _ _)).mpr (Bool.eq_false_iff.mp hinf)
    rw [f64NearestBits_eq, not_lt, le_min_iff] at hbits
    exact lt_of_roundedUnits_overflow hpos hbits.1 hm

/-- Settles O60: an exact quotient is no overflow, and nothing but the quotient itself is as near to it. -/
theorem defaultDividesExactly : Obligations.DefaultDividesExactly := by
  intro a b ha hb hz q hq hexact
  obtain ⟨-, hsign, hnearest, hoverflow⟩ := gainDivisionIsNearestEven a b ha hb hz
  have hfin : f64Finite (GainUnit.binary64.fdiv a b) = true := by
    by_contra hinf
    exact (hoverflow (Bool.eq_false_iff.mpr hinf) q hq).ne hexact
  obtain ⟨hnear, -⟩ := hnearest hfin q hq
  have heq : f64Mag (GainUnit.binary64.fdiv a b) * f64Mag b = f64Mag q * f64Mag b := by omega
  exact ⟨hfin, Nat.eq_of_mul_eq_mul_right (f64Mag_pos hz) heq, fun _ => hsign⟩

end Sys2Proof.Machine
end

section
/-! The scaled echo (42_echo.md R150 to R152): its range in every gain unit, its laws on exact quotients, and under the
default division its laws on powers of two and its order. -/

namespace Sys2Proof.Machine

/-! ## Saturation and narrowing (R151) -/

theorem sat16_bounds (n : Int) : -32768 ≤ sat16 n ∧ sat16 n ≤ 32767 := by
  unfold sat16
  split_ifs <;> omega

theorem sat16_of_int16 {n : Int} (hlo : -32768 ≤ n) (hhi : n ≤ 32767) : sat16 n = n := by
  rw [sat16, if_neg (by omega), if_neg (by omega)]

theorem sat16_mono {m n : Int} (h : m ≤ n) : sat16 m ≤ sat16 n := by
  unfold sat16
  split_ifs <;> omega

/-- Saturation is odd but where it gives the two ends of the range. -/
theorem sat16_neg_cases (n : Int) :
    sat16 (-n) = -sat16 n ∨ (sat16 n = 32767 ∧ sat16 (-n) = -32768) ∨ (sat16 n = -32768 ∧ sat16 (-n) = 32767) := by
  unfold sat16
  split_ifs <;> omega

/-- Past the range the sign alone decides. -/
theorem sat16_of_large {m : Nat} (hm : 32768 ≤ m) (neg : Bool) :
    sat16 (if neg then -(m : Int) else m) = if neg then -32768 else 32767 := by
  cases neg with
  | true =>
    show sat16 (-(m : Int)) = -32768
    unfold sat16
    split_ifs <;> omega
  | false =>
    show sat16 m = 32767
    unfold sat16
    split_ifs <;> omega

theorem narrow_bounds (q : Word64) : -32768 ≤ narrow q ∧ narrow q ≤ 32767 := by
  unfold narrow
  split_ifs
  · have hlo := BitVec.le_toInt (Config.narrowNaN q)
    have hhi := BitVec.toInt_lt (x := Config.narrowNaN q)
    omega
  · omega
  · omega
  · exact sat16_bounds _

/-- Settles O36: a narrowed quotient is an int16, and the sum of two of them has the stated bounds. -/
theorem scaleIsASample : Obligations.ScaleIsASample := by
  intro g v e s hlo hhi
  obtain ⟨hlo', hhi'⟩ : -32768 ≤ scale g v e ∧ scale g v e ≤ 32767 := narrow_bounds _
  omega

theorem f64One_eq : f64One = 2 ^ 1074 := rfl

theorem f64One_pos : 0 < f64One := by
  rw [f64One_eq]
  positivity

/-- From 2^1024 on a magnitude is past the range of a sample. -/
theorem f64Magnitude_div_one_large {e : Nat} (he : 1074 < e) (f : Nat) : 32768 ≤ f64Magnitude e f / f64One := by
  have hlarge := le_f64Magnitude_of_lt (p := 1074) he f
  rw [← f64One_eq] at hlarge
  rw [Nat.le_div_iff_mul_le f64One_pos]
  omega

/-- The pattern of an infinity, read as if it were finite, is past the range of a sample. -/
theorem f64Mag_div_one_of_inf {q : Word64} (h : f64IsInf q = true) : 32768 ≤ f64Mag q / f64One := by
  obtain ⟨hexp, -⟩ : f64Exp q = 2047 ∧ f64Frac q = 0 := by simpa [f64IsInf] using h
  exact f64Magnitude_div_one_large (by omega) _

/-- But for a NaN, narrowing is truncation and saturation: an infinity saturates by its sign. -/
theorem narrow_of_not_nan {q : Word64} (h : f64IsNaN q = false) : narrow q = sat16 (f64Trunc0 q) := by
  rw [narrow, h, if_neg Bool.false_ne_true]
  split
  next hinf => exact (sat16_of_large (f64Mag_div_one_of_inf hinf) (f64Sign q)).symm
  next => rfl

theorem f64IsNaN_of_finite {q : Word64} (h : f64Finite q = true) : f64IsNaN q = false := by
  rw [f64Finite, bne_iff_ne] at h
  simp [f64IsNaN, h]

/-! ## Exact quotients (R152) -/

theorem vscaleLegal_iff {v : Word64} : vscaleLegal v = true ↔ f64Finite v = true ∧ f64IsZero v = false := by
  simp [vscaleLegal]

theorem f64Mag_f64OfInt {e : Int} (hlo : -32768 ≤ e) (hhi : e ≤ 32767) : f64Mag (f64OfInt e) = e.natAbs * f64One :=
  (f64OfInt_exact (by omega)).2

/-- Settles O40: the unit's quotient has the magnitude of `q`, and its sign matters only where `q` is no zero. -/
theorem scaleOfAnExactQuotient : Obligations.ScaleOfAnExactQuotient := by
  intro g v q e _ hq hlo hhi hexact hmag
  obtain ⟨hfin, hquot, hsign⟩ := hexact q hq (by rw [hmag, f64Mag_f64OfInt hlo hhi])
  rw [scale, narrow_of_not_nan (f64IsNaN_of_finite hfin), f64Trunc0, hquot]
  obtain hzero | hnonzero := eq_or_ne (f64Mag q) 0
  · simp [hzero]
  · rw [hsign hnonzero, f64Sign_f64OfInt]

/-- Settles O41: the quotient of 0 is exactly 0. -/
theorem scaleOfZeroIsZero : Obligations.ScaleOfZeroIsZero := by
  intro g v hv hexact
  have hmag : f64Mag 0#64 = 0 := by decide
  rw [scaleOfAnExactQuotient g v 0#64 0 hv (by decide) (by decide) (by decide) hexact (by simp [hmag]), hmag]
  simp [sat16]

/-! ## Powers of two (R152 b, c) -/

/-- A pattern given by its low 63 bits has sign 0. -/
theorem ofNat_eq_f64OfBits {bits : Nat} (h : bits < 2 ^ 63) : BitVec.ofNat 64 bits = f64OfBits false bits := by
  apply BitVec.eq_of_toNat_eq
  rw [f64OfBits_toNat, BitVec.toNat_ofNat, Bool.toNat_false]
  omega

/-- `v` is the positive power of two of 2^`j` units. -/
structure IsPowerOfTwo (v : Word64) (j : Nat) : Prop where
  finite : f64Finite v = true
  sign : f64Sign v = false
  mag : f64Mag v = 2 ^ j

/-- A significand that is a power of two makes the value one. -/
theorem isPowerOfTwo_ofNat {s i : Nat} (hi : i ≤ 52) (hnormal : s = 0 ∨ i = 52) (hs : s ≤ 2045) :
    IsPowerOfTwo (BitVec.ofNat 64 (s * 2 ^ 52 + 2 ^ i)) (i + s) := by
  have hsig : 2 ^ i ≤ 2 ^ 52 := Nat.pow_le_pow_right two_pos hi
  have hbits : s * 2 ^ 52 + 2 ^ i < f64InfBits := by rw [f64InfBits]; omega
  rw [ofNat_eq_f64OfBits (hbits.trans (by decide))]
  refine ⟨f64Finite_f64OfBits false hbits, f64Sign_f64OfBits false _, ?_⟩
  rw [pow_add]
  exact f64Mag_f64OfBits_shifted false (by omega) (hnormal.imp_right fun h => by rw [h]) hbits

/-- 2^`k`, from 1 up (30_encoding.md R81). -/
theorem isPowerOfTwo_of_large {k : Nat} (hk : k ≤ 1023) :
    IsPowerOfTwo (BitVec.ofNat 64 ((1023 + k) * 2 ^ 52)) (1074 + k) := by
  have h := isPowerOfTwo_ofNat (s := 1022 + k) le_rfl (.inr rfl) (by omega)
  rwa [show (1022 + k) * 2 ^ 52 + 2 ^ 52 = (1023 + k) * 2 ^ 52 by omega, ← Nat.add_assoc] at h

/-- 2^−`k`, normal (30_encoding.md R81). -/
theorem isPowerOfTwo_of_normal {k : Nat} (hk : k ≤ 1022) :
    IsPowerOfTwo (BitVec.ofNat 64 ((1023 - k) * 2 ^ 52)) (1074 - k) := by
  have h := isPowerOfTwo_ofNat (s := 1022 - k) le_rfl (.inr rfl) (by omega)
  rwa [show (1022 - k) * 2 ^ 52 + 2 ^ 52 = (1023 - k) * 2 ^ 52 by omega, ← Nat.add_sub_assoc hk] at h

/-- 2^−`k`, subnormal (30_encoding.md R81). -/
theorem isPowerOfTwo_of_subnormal {k : Nat} (hk : 1023 ≤ k) :
    IsPowerOfTwo (BitVec.ofNat 64 (2 ^ (1074 - k))) (1074 - k) := by
  have h := isPowerOfTwo_ofNat (s := 0) (i := 1074 - k) (by omega) (.inl rfl) (by omega)
  rwa [Nat.zero_mul, Nat.zero_add, Nat.add_zero] at h

/-- 2^`k` and 2^−`k`, both in units, make 1. -/
theorem two_pow_mul_two_pow_sub {k : Nat} (hk : k ≤ 1074) : 2 ^ k * 2 ^ (1074 - k) = f64One := by
  rw [← pow_add, Nat.add_sub_cancel' hk, f64One_eq]

theorem IsPowerOfTwo.isZero_eq_false {v : Word64} {j : Nat} (h : IsPowerOfTwo v j) : f64IsZero v = false := by
  refine Bool.eq_false_iff.mpr fun hzero => (Nat.two_pow_pos j).ne' ?_
  obtain ⟨hexp, hfrac⟩ : f64Exp v = 0 ∧ f64Frac v = 0 := by simpa [f64IsZero] using hzero
  rw [← h.mag, f64Mag, f64Magnitude, if_pos hexp, hfrac]

theorem IsPowerOfTwo.vscaleLegal {v : Word64} {j : Nat} (h : IsPowerOfTwo v j) : vscaleLegal v = true :=
  vscaleLegal_iff.mpr ⟨h.finite, h.isZero_eq_false⟩

/-- An integer of 53 bits at a place in the exponent range is a binary64 value. -/
theorem exists_finite_of_mag {n j : Nat} (hn : n < 2 ^ 53) (hj : j ≤ 1074) :
    ∃ q : Word64, f64Finite q = true ∧ f64Mag q = n * 2 ^ j := by
  have hplace : (n * 2 ^ j).log2 - 52 ≤ j := lastPlace_of_integer_le hn
  have hunits : n * f64One = n * 2 ^ j * 2 ^ (1074 - j) := by
    rw [mul_assoc, two_pow_mul_two_pow_sub hj]
  exact ⟨_, f64OfBits_nearestBits_exact false (Nat.two_pow_pos _) hunits ((pow_dvd_pow 2 hplace).mul_left _) (by omega)⟩

/-- An integer as its sign and its magnitude, multiplied and divided (00_scope.md R11). -/
theorem mul_eq_ite_natAbs (e : Int) (n : Nat) :
    e * n = if decide (e < 0) then -((e.natAbs * n : Nat) : Int) else ((e.natAbs * n : Nat) : Int) := by
  obtain ⟨m, rfl | rfl⟩ := e.eq_nat_or_neg
  · simp
  · obtain rfl | hm := m.eq_zero_or_pos <;> simp [*]

theorem tdiv_eq_ite_natAbs (e : Int) (n : Nat) :
    e.tdiv n = if decide (e < 0) then -((e.natAbs / n : Nat) : Int) else ((e.natAbs / n : Nat) : Int) := by
  obtain ⟨m, rfl | rfl⟩ := e.eq_nat_or_neg
  · simp
  · obtain rfl | hm := m.eq_zero_or_pos <;> simp [*, Int.neg_tdiv]

theorem tdiv_bounds {e : Int} (hlo : -32768 ≤ e) (hhi : e ≤ 32767) (n : Nat) :
    -32768 ≤ e.tdiv n ∧ e.tdiv n ≤ 32767 := by
  simp only [tdiv_eq_ite_natAbs, decide_eq_true_eq]
  have hle : e.natAbs / n ≤ e.natAbs := Nat.div_le_self _ _
  generalize e.natAbs / n = q at hle
  split <;> omega

/-- Settles O42: `e / 2^k` is a binary64 value, and its whole part is that of the magnitudes. -/
theorem scaleByAPowerOfTwo : Obligations.ScaleByAPowerOfTwo := by
  intro g k e hk hlo hhi hexact
  have hv := isPowerOfTwo_of_large hk
  obtain ⟨hbounds, hbounds'⟩ := tdiv_bounds hlo hhi (2 ^ k)
  obtain ⟨q, hq, hquot⟩ := exists_finite_of_mag (n := e.natAbs) (j := 1074 - k) (by omega) (Nat.sub_le ..)
  have hone : 2 ^ k * 2 ^ (1074 - k) = f64One := two_pow_mul_two_pow_sub (by omega)
  have hprod : f64Mag q * f64Mag (BitVec.ofNat 64 ((1023 + k) * 2 ^ 52)) = e.natAbs * f64One * f64One := by
    rw [hquot, hv.mag, pow_add, ← f64One_eq, mul_comm f64One, ← mul_assoc, mul_assoc e.natAbs, mul_comm _ (2 ^ k), hone]
  rw [scaleOfAnExactQuotient g _ q e hv.vscaleLegal hq hlo hhi hexact hprod, hv.sign, Bool.bne_false, hquot, ← hone,
    Nat.mul_div_mul_right _ _ (Nat.two_pow_pos _), ← tdiv_eq_ite_natAbs, sat16_of_int16 hbounds hbounds']
  push_cast
  rfl

/-! ## The default division (R150) -/

/-- The magnitude of the scaled echo of a sample of magnitude `n`, before saturation, under the default division. -/
def scaledMagnitude (v : Word64) (n : Nat) : Nat :=
  f64Mag (f64OfBits false (f64NearestBits (n * f64One) (f64Mag v))) / f64One

theorem f64Mag_f64OfBits (neg : Bool) {bits : Nat} (h : bits ≤ f64InfBits) :
    f64Mag (f64OfBits neg bits) = f64Magnitude (bits / 2 ^ 52) (bits % 2 ^ 52) := by
  rw [f64InfBits] at h
  rw [f64Mag, f64Exp_f64OfBits neg (by omega), f64Frac_f64OfBits]

/-- Under the default division a scaled echo is a magnitude that depends on the magnitude of the sample alone, with the
sign of the quotient, saturated. -/
theorem scale_binary64 {v : Word64} {e : Int} (hv : vscaleLegal v = true) (hlo : -32768 ≤ e) (hhi : e ≤ 32767) :
    scale .binary64 v e =
      sat16 (if decide (e < 0) != f64Sign v then -(scaledMagnitude v e.natAbs : Int)
        else scaledMagnitude v e.natAbs) := by
  obtain ⟨hfin, hz⟩ := vscaleLegal_iff.mp hv
  have hbits := f64NearestBits_le (e.natAbs * f64One) (f64Mag v)
  rw [scale, GainUnit.binary64_fdiv, f64Div_of_finite (f64OfInt_exact (by omega)).1 hfin hz, f64Mag_f64OfInt hlo hhi,
    narrow_of_not_nan (f64IsNaN_f64OfBits _ hbits), f64Trunc0, f64Sign_f64OfBits, f64Sign_f64OfInt, scaledMagnitude,
    f64Mag_f64OfBits _ hbits, f64Mag_f64OfBits _ hbits]

/-! ## Powers of two below 1 (R152 c) -/

/-- An exact quotient past the exponent range overflows to an infinity. -/
theorem f64NearestBits_eq_inf {num den : Nat} (hden : 0 < den) (h : 2046 ≤ lastPlace (num * f64One) den) :
    f64NearestBits num den = f64InfBits := by
  obtain ⟨-, hlead⟩ := roundedSignificand_bounds (num * f64One) hden
  rw [f64NearestBits_eq, min_eq_right]
  rw [f64InfBits]
  omega

/-- Multiplying by 2^`k` is exact, or past the range of a sample on both sides. -/
theorem scaledMagnitude_of_isPowerOfTwo {v : Word64} {k n : Nat} (hk : k ≤ 1074) (hn : n < 2 ^ 53)
    (hv : IsPowerOfTwo v (1074 - k)) :
    scaledMagnitude v n = n * 2 ^ k ∨ (32768 ≤ scaledMagnitude v n ∧ 32768 ≤ n * 2 ^ k) := by
  have hpos : 0 < 2 ^ (1074 - k) := Nat.two_pow_pos _
  have hexact : n * f64One * f64One = n * 2 ^ k * f64One * 2 ^ (1074 - k) := by
    rw [mul_right_comm (n * 2 ^ k), mul_assoc n (2 ^ k), two_pow_mul_two_pow_sub hk]
  rw [scaledMagnitude, hv.mag]
  obtain hin | hover := Nat.lt_or_ge ((n * 2 ^ k * f64One).log2 - 52) 2046
  · have hdvd : 2 ^ ((n * 2 ^ k * f64One).log2 - 52) ∣ n * 2 ^ k * f64One := by
      rw [mul_assoc n, f64One_eq, ← pow_add]
      exact (pow_dvd_pow 2 (lastPlace_of_integer_le hn)).mul_left n
    obtain ⟨-, hquot⟩ := f64OfBits_nearestBits_exact false hpos hexact hdvd (by omega)
    exact .inl (by rw [hquot, Nat.mul_div_cancel _ f64One_pos])
  · refine .inr ⟨?_, ?_⟩
    · have hlast : 2046 ≤ lastPlace (n * f64One * f64One) (2 ^ (1074 - k)) := by
        rwa [lastPlace, hexact, Nat.mul_div_cancel _ hpos]
      rw [f64NearestBits_eq_inf hpos hlast]
      exact f64Mag_div_one_of_inf (by decide)
    · by_contra hsmall
      have hplace : (n * 2 ^ k * f64One).log2 - 52 ≤ 1074 := lastPlace_of_integer_le (by omega)
      omega

theorem scale_of_isPowerOfTwo {v : Word64} {k : Nat} {e : Int} (hk : k ≤ 1074) (hv : IsPowerOfTwo v (1074 - k))
    (hlo : -32768 ≤ e) (hhi : e ≤ 32767) : scale .binary64 v e = sat16 (e * 2 ^ k) := by
  have hmul := mul_eq_ite_natAbs e (2 ^ k)
  rw [Nat.cast_pow, Nat.cast_ofNat] at hmul
  rw [scale_binary64 hv.vscaleLegal hlo hhi, hv.sign, Bool.bne_false, hmul]
  obtain heq | ⟨hlarge, hlarge'⟩ := scaledMagnitude_of_isPowerOfTwo (n := e.natAbs) hk (by omega) hv
  · rw [heq]
  · rw [sat16_of_large hlarge, sat16_of_large hlarge']

/-- Settles O43: both encodings are 2^−k. -/
theorem scaleByAFractionOfTwo : Obligations.ScaleByAFractionOfTwo := by
  intro k e _ hlo hhi
  exact ⟨fun hk => scale_of_isPowerOfTwo (by omega) (isPowerOfTwo_of_normal hk) hlo hhi,
    fun hk hk' => scale_of_isPowerOfTwo hk' (isPowerOfTwo_of_subnormal hk) hlo hhi⟩

/-! ## Order and oddness (R150, R151, R152 d) -/

theorem f64NearestBits_mono {num num' den : Nat} (hden : 0 < den) (h : num ≤ num') :
    f64NearestBits num den ≤ f64NearestBits num' den := by
  have hn : num * f64One ≤ num' * f64One := Nat.mul_le_mul_right _ h
  rw [f64NearestBits_eq, f64NearestBits_eq]
  refine min_le_min_right _ ?_
  obtain hlt | heq := (lastPlace_mono den hn).lt_or_eq
  · obtain ⟨hk, -⟩ := roundedSignificand_bounds (num * f64One) hden
    obtain ⟨-, hlead⟩ := roundedSignificand_bounds (num' * f64One) hden
    omega
  · have hsig := divNearestEven_mono (Nat.mul_pos hden (Nat.two_pow_pos (lastPlace (num * f64One) den))) hn
    unfold roundedSignificand
    rw [← heq]
    exact Nat.add_le_add_left hsig _

theorem scaledMagnitude_mono {v : Word64} (hz : f64IsZero v = false) {n n' : Nat} (h : n ≤ n') :
    scaledMagnitude v n ≤ scaledMagnitude v n' := by
  have hbits := f64NearestBits_mono (f64Mag_pos hz) (Nat.mul_le_mul_right f64One h)
  rw [scaledMagnitude, scaledMagnitude, f64Mag_f64OfBits _ (f64NearestBits_le _ _),
    f64Mag_f64OfBits _ (f64NearestBits_le _ _)]
  exact Nat.div_le_div_right (f64Magnitude_mono (Nat.mod_lt _ (Nat.two_pow_pos 52)) (by omega))

/-- A function of the magnitude that grows, with the sign put back, grows on all integers. -/
theorem ite_neg_natAbs_mono {T : Nat → Nat} (hT : Monotone T) {e f : Int} (h : e ≤ f) :
    (if decide (e < 0) then -(T e.natAbs : Int) else T e.natAbs) ≤
      if decide (f < 0) then -(T f.natAbs : Int) else T f.natAbs := by
  simp only [decide_eq_true_eq]
  split_ifs with he hf hf
  · have hle := hT (show f.natAbs ≤ e.natAbs by omega)
    omega
  · omega
  · omega
  · have hle := hT (show e.natAbs ≤ f.natAbs by omega)
    omega

/-- The other sign of the sample is the other sign of the quotient. -/
theorem ite_not_bne (a b : Bool) (m : Int) :
    (if (!a) != b then -m else m) = -(if a != b then -m else m) := by
  cases a <;> cases b <;> simp

/-- Settles O44: the rounded magnitude grows with that of the sample, and changing the sample's sign changes the
quotient's sign alone. -/
theorem scaleIsMonotoneAndOdd : Obligations.ScaleIsMonotoneAndOdd := by
  intro v hv
  obtain ⟨hfin, hz⟩ := vscaleLegal_iff.mp hv
  refine ⟨fun hsign e f hlo hef hhi => ?monotone, fun e hlo hhi => ?odd⟩
  case monotone =>
    rw [scale_binary64 hv hlo (by omega), scale_binary64 hv (by omega) hhi, hsign, Bool.bne_false, Bool.bne_false]
    exact sat16_mono (ite_neg_natAbs_mono (fun _ _ => scaledMagnitude_mono hz) hef)
  case odd =>
    obtain rfl | hne := eq_or_ne e 0
    · have hzero : scale .binary64 v 0 = 0 :=
        scaleOfZeroIsZero .binary64 v hv (defaultDividesExactly _ v (f64OfInt_exact (by decide)).1 hfin hz)
      exact .inl (by rw [Int.neg_zero, hzero, Int.neg_zero])
    · have hflip : decide (-e < 0) = !decide (e < 0) := by
        rw [← decide_not, decide_eq_decide]
        omega
      rw [scale_binary64 hv (by omega) hhi, scale_binary64 hv (by omega) (by omega), Int.natAbs_neg, hflip, ite_not_bne]
      exact sat16_neg_cases _

end Sys2Proof.Machine
end

section
/-! The output of a finished echo run, byte by byte and sample by sample (20_memory.md R63, 41_sequencer_header.md R132,
42_echo.md R170). -/

namespace Sys2Proof.Machine

/-! ## The patched header (R132) -/

theorem patchedHeader_length {header : List Byte} (hh : header.length = 44) (total : Nat) :
    (patchedHeader header total).length = 44 := by
  simp [patchedHeader, hh, riffOff]

/-- Where the parts of a patched header stand. -/
theorem patchedHeader_parts {header : List Byte} (hh : header.length = 44) (total : Nat) (data : List Byte) :
    (patchedHeader header total ++ data).take 4 = header.take 4 ∧
      (∀ j, j < 4 → (patchedHeader header total ++ data)[4 + j]? = (sizeField (total - 8))[j]?) ∧
      ((patchedHeader header total ++ data).drop 8).take 32 = (header.drop 8).take 32 ∧
      ∀ j, j < 4 → (patchedHeader header total ++ data)[40 + j]? = (sizeField (total - 44))[j]? := by
  have hfirst : (header.take 4).length = 4 := List.length_take_of_le (by omega)
  have hmiddle : ((header.drop 8).take 32).length = 32 := List.length_take_of_le (by rw [List.length_drop]; omega)
  have hparts : patchedHeader header total ++ data = header.take 4 ++
      (sizeField (total - 8) ++ ((header.drop 8).take 32 ++ (sizeField (total - 44) ++ data))) := by
    simp only [patchedHeader, List.append_assoc]
  have hdrop4 : (patchedHeader header total ++ data).drop 4 =
      sizeField (total - 8) ++ ((header.drop 8).take 32 ++ (sizeField (total - 44) ++ data)) := by
    rw [hparts, List.drop_left' hfirst]
  have hdrop8 : (patchedHeader header total ++ data).drop 8 =
      (header.drop 8).take 32 ++ (sizeField (total - 44) ++ data) := by
    rw [← List.drop_drop (i := 4) (j := 4), hdrop4, List.drop_left' (sizeField_length _)]
  have hdrop40 : (patchedHeader header total ++ data).drop 40 = sizeField (total - 44) ++ data := by
    rw [← List.drop_drop (i := 32) (j := 8), hdrop8, List.drop_left' hmiddle]
  refine ⟨?_, fun j hj => ?_, ?_, fun j hj => ?_⟩
  · rw [hparts, List.take_left' hfirst]
  · rw [← List.getElem?_drop, hdrop4, List.getElem?_append_left hj]
  · rw [hdrop8, List.take_left' hmiddle]
  · rw [← List.getElem?_drop, hdrop40, List.getElem?_append_left hj]

/-! ## The samples (R170) -/

/-- The output of `n` samples, cut at one of them. -/
theorem exists_echoData_eq (g : GainUnit) (v : Word64) (d : Nat) (input : List Byte) {i n : Nat} (h : i < n) :
    ∃ rest, echoData g v d input n = echoData g v d input i ++ sampleBytes (echoOut g v d input i) ++ rest := by
  induction n, h using Nat.le_induction with
  | base => exact ⟨[], by rw [echoData_succ, List.append_nil]⟩
  | succ n _ ih =>
    obtain ⟨rest, hrest⟩ := ih
    exact ⟨rest ++ sampleBytes (echoOut g v d input n), by rw [echoData_succ, hrest, List.append_assoc]⟩

/-- Every output sample is an int16: a mix is saturated, and a scaled sample is narrowed (R151, R155). -/
theorem echoOut_bounds (g : GainUnit) (v : Word64) (d : Nat) (input : List Byte) (i : Nat) :
    -32768 ≤ echoOut g v d input i ∧ echoOut g v d input i ≤ 32767 := by
  unfold echoOut
  split
  · exact sat16_bounds _
  · exact narrow_bounds _

/-- Sample `i` of an echo run reads back from its place behind the header. -/
theorem sampleAt_echoData {header : List Byte} (hh : header.length = 44) (g : GainUnit) (v : Word64) (d : Nat)
    (input : List Byte) {i n : Nat} (h : i < n) :
    (sampleAt (header ++ echoData g v d input n) (44 + 2 * i)).toInt = echoOut g v d input i := by
  obtain ⟨rest, hrest⟩ := exists_echoData_eq g v d input h
  obtain ⟨hlo, hhi⟩ := echoOut_bounds g v d input i
  have hplace : (header ++ echoData g v d input i).length = 44 + 2 * i := by
    rw [List.length_append, hh, echoData_length]
  rw [hrest, ← List.append_assoc, ← List.append_assoc, ← hplace]
  exact sampleBytesReadBack _ _ _ hlo hhi

/-! ## The finished run -/

theorem State.trace_done_echo {s : State} (hp : s.phase = .done) (hm : s.mode = .echo) :
    s.trace ↔ hdrSize ≤ s.input.length ∧ s.inPos = s.input.length ∧
      s.out = patchedHeader (headerOf s.input) (hdrSize + 2 * s.echoTotal) ++ s.echoDataSoFar s.echoTotal := by
  simp only [State.trace, hp, hm]

/-- Settles O54: the history fixes OUT in DONE, the header's parts stand at their offsets, and each sample reads
back. -/
theorem echoResultInClosedForm : Obligations.EchoResultInClosedForm := by
  rintro s ⟨-, htrace⟩ hp hm
  obtain ⟨hin, -, hout⟩ := (State.trace_done_echo hp hm).mp htrace
  have hhdr := headerOf_length hin
  have hpatched := patchedHeader_length hhdr (hdrSize + 2 * s.echoTotal)
  obtain ⟨hbefore, hriff, hbetween, hdata⟩ :=
    patchedHeader_parts hhdr (hdrSize + 2 * s.echoTotal) (s.echoDataSoFar s.echoTotal)
  have hsample {i : Nat} (hi : i < sampleCount s.input + s.delayNat) :
      (sampleAt s.out (44 + 2 * i)).toInt = echoOut s.gain s.vscale s.delayNat s.input i := by
    rw [hout]
    exact sampleAt_echoData hpatched _ _ _ _ hi
  rw [← hout] at hbefore hriff hbetween hdata
  refine ⟨?length, ?before, fun j hj => ?riff, ?between, fun j hj => ?data, fun i hi => ?mixed, fun k hk => ?tail⟩
  case length =>
    rw [hout, List.length_append, hpatched, State.echoDataSoFar, echoData_length]
    rfl
  case before => rw [hbefore, headerOf, List.take_take]; rfl
  case riff =>
    rw [hriff j hj, getElem?_sizeField hj]
    congr 4
    show 44 + _ - 8 = _
    rw [State.echoTotal]
    omega
  case between => rw [hbetween, headerOf, List.drop_take, List.take_take]; rfl
  case data =>
    rw [hdata j hj, getElem?_sizeField hj, hdrSize, Nat.add_sub_cancel_left]
    rfl
  case mixed =>
    rw [hsample (by omega), echoOut, if_pos hi, mix]
  case tail =>
    rw [hsample (by omega), echoOut, if_neg (by omega)]
    congr 2
    omega

end Sys2Proof.Machine
end

section
/-! The halved difference (43_downmix.md R181) and the Downmix Filter's operations, by outcome (R182, R186). -/

namespace Sys2Proof.Machine

/-! ## The halved difference (R181) -/

/-- Two samples differ by at most a 17-bit amount. -/
theorem sample_sub_bounds (l r : Sample) : -65535 ≤ l.toInt - r.toInt ∧ l.toInt - r.toInt ≤ 65535 := by
  have hl := l.le_toInt
  have hl' := l.toInt_lt
  have hr := r.le_toInt
  have hr' := r.toInt_lt
  omega

/-- A floored halving rounds down; adding 1 to a negative number first makes it round toward zero. -/
theorem tdiv_two_eq_div (n : Int) : n.tdiv 2 = (n + if n < 0 then 1 else 0) / 2 := by
  rw [Int.tdiv_eq_ediv, show Int.sign 2 = 1 from rfl]
  split <;> split <;> omega

/-- An arithmetic shift right by one is the floored halving. -/
theorem div_two_eq_shiftRight (n : Int) : n / 2 = n >>> 1 := by
  cases n <;> rfl

theorem halfDiff_bounds (l r : Sample) : -32767 ≤ halfDiff l.toInt r.toInt ∧ halfDiff l.toInt r.toInt ≤ 32767 := by
  obtain ⟨hlo, hhi⟩ := sample_sub_bounds l r
  rw [halfDiff, tdiv_two_eq_div]
  split <;> omega

/-- The sign-corrected shift: 1 is added to a negative difference before the shift rounds down. -/
theorem halfDiff_eq_shiftRight (a b : Int) : halfDiff a b = (a - b + if a - b < 0 then 1 else 0) >>> 1 :=
  (tdiv_two_eq_div _).trans (div_two_eq_shiftRight _)

/-- Truncation is symmetric about zero, so exchanging the channels changes the sign alone. -/
theorem halfDiff_swap (a b : Int) : halfDiff b a = -halfDiff a b := by
  rw [halfDiff, halfDiff, ← Int.neg_sub, Int.neg_tdiv]

/-- Settles O45: a 17-bit difference halves into an int16. -/
theorem halvedDifferenceNeedsNoClamp : Obligations.HalvedDifferenceNeedsNoClamp := by
  intro l r
  obtain ⟨hlo, hhi⟩ := halfDiff_bounds l r
  exact ⟨sample_sub_bounds l r, rfl, hlo, hhi, halfDiff_eq_shiftRight _ _, halfDiff_swap _ _,
    enc16_toInt (by omega) (by omega)⟩

/-! ## DMX.PAIR (R182) -/

/-- Where IN still holds a fourth byte, the sequencer does not take it for exhausted. -/
theorem State.exh_eq_false_of_fourth {s : State} {b3 : Byte} (hp : s.phase = .dmxRun)
    (h3 : s.input[s.inPos + 3]? = some b3) : s.exh = false := by
  obtain ⟨hlt, -⟩ := List.getElem?_eq_some_iff.mp h3
  rw [State.exh_dmxRun hp, decide_eq_false_iff_not, State.inAvail]
  omega

/-- The word at an offset where both of its bytes are known (20_memory.md R60). -/
theorem sampleAt_of_bytes {bs : List Byte} {k : Nat} {b0 b1 : Byte} (h0 : bs[k]? = some b0)
    (h1 : bs[k + 1]? = some b1) : sampleAt bs k = b1 ++ b0 := by
  rw [sampleAt, List.getD_eq_getElem?_getD, List.getD_eq_getElem?_getD, h0, h1]
  rfl

/-- The next four bytes of IN, the left sample before the right (30_encoding.md R77). -/
theorem State.pairSample_of_bytes {s : State} {b0 b1 b2 b3 : Byte} (h0 : s.input[s.inPos]? = some b0)
    (h1 : s.input[s.inPos + 1]? = some b1) (h2 : s.input[s.inPos + 2]? = some b2)
    (h3 : s.input[s.inPos + 3]? = some b3) :
    s.pairSample = ((b1 ++ b0).toInt - (b3 ++ b2).toInt).tdiv 2 := by
  rw [State.pairSample, State.inBytes, sampleAt_window _ _ (by omega), sampleAt_window _ _ (by omega), Nat.add_zero,
    sampleAt_of_bytes h0 h1, sampleAt_of_bytes h2 h3, halfDiff]

/-- A torn write of a pair leaves its first `k` bytes (20_memory.md R57). -/
theorem writtenOnFail_pairBytes {k : Nat} (hk : k < 4) (d : Int) :
    writtenOnFail k (pairBytes d) = (pairBytes d).take k :=
  writtenOnFail_eq_take k _ hk

/-- Settles O32: the two outcomes of the write of a pair, whose four bytes are consumed before the sink is asked. -/
theorem dmxPairEffect : Obligations.DmxPairEffect := by
  intro s b0 b1 b2 b3 hp h0 h1 h2 h3
  have hx := State.exh_eq_false_of_fourth hp h3
  have hpair := State.pairSample_of_bytes h0 h1 h2 h3
  refine ⟨decodeSeq_selector_eq_ok_iff.mpr (by rw [hp, hx]; rfl), fun ha => ?_, fun k hk ha => ?_⟩
  · have hexec := Executes.paired hp hx ha
    rw [hpair, pairBytes, ← List.append_assoc] at hexec
    exact exec_next_iff.mpr hexec
  · have hexec := Executes.pairTorn k hp hx ha
    rw [hpair, writtenOnFail_pairBytes hk] at hexec
    exact exec_next_iff.mpr hexec

/-! ## DMX.EOS (R186) -/

/-- Settles O33: with fewer than four bytes left, consuming what is available reaches the end of IN. -/
theorem dmxEosEffect : Obligations.DmxEosEffect := by
  intro s hp hbound hshort
  have hx : s.exh = true := by
    rw [State.exh_dmxRun hp, decide_eq_true_eq, State.inAvail]
    omega
  have hexec := Executes.dmxEnded hp hx
  rw [State.inAvail, Nat.add_sub_cancel' hbound] at hexec
  exact ⟨decodeSeq_selector_eq_ok_iff.mpr (by rw [hp, hx]; rfl), exec_next_iff.mpr hexec⟩

end Sys2Proof.Machine
end

section
/-! The output of a finished downmix run, sample by sample (20_memory.md R63, 41_sequencer_header.md R134,
43_downmix.md R190). -/

namespace Sys2Proof.Machine

/-! ## The pairs (R190) -/

theorem pairData_length (input : List Byte) (n : Nat) : (pairData input n).length = 4 * n := by
  induction n with
  | zero => rfl
  | succ n ih => rw [pairData_succ, List.length_append, ih, pairBytes_length]; omega

/-- The output of `n` pairs, cut at one of them. -/
theorem exists_pairData_eq (input : List Byte) {p n : Nat} (h : p < n) :
    ∃ rest, pairData input n = pairData input p ++ pairBytes (pairOut input p) ++ rest := by
  obtain ⟨m, rfl⟩ := Nat.exists_eq_add_of_le (Nat.succ_le_of_lt h)
  exact ⟨_, by rw [pairData, List.range_add, List.flatMap_append, ← pairData, pairData_succ]⟩

/-- A pair reads back as the same word twice, two bytes apart (R182). -/
theorem sampleAt_append_pairBytes (before after : List Byte) (d : Int) :
    sampleAt (before ++ pairBytes d ++ after) before.length = enc16 d ∧
      sampleAt (before ++ pairBytes d ++ after) (before.length + 2) = enc16 d := by
  rw [pairBytes]
  constructor
  · have hread := sampleAt_append_bytes16 before (sampleBytes d ++ after) (enc16 d)
    simpa only [sampleBytes, List.append_assoc] using hread
  · have hread := sampleAt_append_bytes16 (before ++ sampleBytes d) after (enc16 d)
    rw [List.length_append, sampleBytes_length] at hread
    simpa only [sampleBytes, List.append_assoc] using hread

/-- Pair `p` of a downmix run stands at its place behind the header. -/
theorem sampleAt_pairData {header : List Byte} (hh : header.length = 44) (input : List Byte) {p n : Nat} (h : p < n) :
    sampleAt (header ++ pairData input n) (44 + 4 * p) = enc16 (pairOut input p) ∧
      sampleAt (header ++ pairData input n) (46 + 4 * p) = enc16 (pairOut input p) := by
  obtain ⟨rest, hrest⟩ := exists_pairData_eq input h
  have hplace : (header ++ pairData input p).length = 44 + 4 * p := by
    rw [List.length_append, hh, pairData_length]
  have hpair := sampleAt_append_pairBytes (header ++ pairData input p) rest (pairOut input p)
  rwa [hplace, Nat.add_right_comm, List.append_assoc, List.append_assoc, ← List.append_assoc (pairData input p),
    ← hrest] at hpair

/-- Every output sample is an int16 (R181), so the stored word keeps its value. -/
theorem pairOut_toInt (input : List Byte) (p : Nat) : (enc16 (pairOut input p)).toInt = pairOut input p := by
  obtain ⟨hlo, hhi⟩ := halfDiff_bounds (sampleAt input (hdrSize + 4 * p)) (sampleAt input (hdrSize + 4 * p + 2))
  exact enc16_toInt (by rw [pairOut]; omega) (by rw [pairOut]; omega)

theorem pairOut_eq (input : List Byte) (p : Nat) :
    pairOut input p = ((sampleAt input (44 + 4 * p)).toInt - (sampleAt input (46 + 4 * p)).toInt).tdiv 2 := by
  rw [pairOut, halfDiff, hdrSize, Nat.add_right_comm]

/-! ## The finished run -/

theorem State.trace_done_downmix {s : State} (hp : s.phase = .done) (hm : s.mode = .downmix) :
    s.trace ↔ hdrSize ≤ s.input.length ∧ s.inPos = s.input.length ∧
      s.out = headerOf s.input ++ pairData s.input (pairCount s.input) := by
  simp only [State.trace, hp, hm]

/-- Settles O55: the history fixes OUT in DONE, the header as it was read, and both words of each pair read back. -/
theorem downmixResultInClosedForm : Obligations.DownmixResultInClosedForm := by
  rintro s ⟨-, htrace⟩ hp hm
  obtain ⟨hin, -, hout⟩ := (State.trace_done_downmix hp hm).mp htrace
  have hhdr := headerOf_length hin
  refine ⟨?length, ?header, fun p hlt => ?pair⟩
  case length => rw [hout, List.length_append, hhdr, pairData_length, hdrSize]
  case header => rw [hout, List.take_left' hhdr, headerOf, hdrSize]
  case pair =>
    obtain ⟨hleft, hright⟩ := sampleAt_pairData hhdr s.input hlt
    rw [← hout] at hleft hright
    exact ⟨by rw [hleft, pairOut_toInt, pairOut_eq], by rw [hright, hleft]⟩

end Sys2Proof.Machine
end

section
/-! Exceptions (60_exceptions.md): what an operation that enters FAULT leaves (R201, R206), and that a state with the
invariant is stopped by no step (R204). -/

namespace Sys2Proof.Machine

/-! ## Entering FAULT (R206) -/

theorem firstPhaseOf_ne_fault (m : Mode) : firstPhaseOf m ≠ .fault := by
  cases m <;> decide

theorem State.checkCause_mem_faultCodes {s : State} {c : Err} (h : s.checkCause = some c) :
    c ∈ faultCodes .checkEcho := by
  simpa [faultCodes] using State.checkCause_mem h

/-- An operation that enters FAULT gives a code of its own, and has moved at most IN_POS, OUT and the sink. -/
theorem Executes.fault_entry {s t : State} {i : Instr} (h : Executes s i t) (hs : s.phase ≠ .fault)
    (ht : t.phase = .fault) :
    t.err ∈ faultCodes i ∧
      t = { s with inPos := t.inPos, out := t.out, sink := t.sink, sinkCount := t.sinkCount }.takeFault t.err := by
  cases h with
  | rdreg | nopw | ignored | setmode | setdelay | setvscale | mixed | flushed | paired => exact absurd ht hs
  | start | abort | echoAccepted | dmxAccepted | lineCleared | echoEnded | flushEnded | patched | dmxEnded => cases ht
  | headerCopied => exact absurd ht (firstPhaseOf_ne_fault _)
  | echoRejected c _ _ hc => exact ⟨State.checkCause_mem_faultCodes hc, rfl⟩
  | headerShort | headerTorn | mixTorn | flushTorn | riffTorn | dataTorn | pairTorn =>
    exact ⟨by simp [faultCodes], rfl⟩

/-- Settles O34: every field it names is one that entering FAULT does not move. -/
theorem faultEntryKeepsTheRest : Obligations.FaultEntryKeepsTheRest := by
  intro i s t hs hexec ht
  obtain ⟨hcode, hentry⟩ := (exec_next_iff.mp hexec).fault_entry hs ht
  refine ⟨hcode, ?_⟩
  rw [hentry]
  exact ⟨rfl, rfl, rfl, rfl, rfl, rfl, rfl, rfl⟩

/-! ## No step stops the machine (R204) -/

/-- In the two echo loops the cursor names an entry in use, and DELAY entries are present (20_memory.md R66). -/
theorem State.Inv.idxInLine {s : State} (h : s.Inv) (hp : s.phase = .echoRun ∨ s.phase = .echoFlush) :
    s.idxInLine = true := by
  obtain ⟨hidx, -⟩ := h.cursor hp
  have hlegal : s.echoConfigLegal := h.echoLegal (.inl (by obtain hp | hp := hp <;> rw [hp] <;> rfl))
  have hcast := State.delayNat_cast hlegal
  obtain ⟨-, hpresent, -⟩ := hlegal
  exact State.idxInLine_of_lt hidx (by omega)

theorem State.Inv.hdrSize_le_out {s : State} (h : s.Inv) (hp : s.phase = .patch) : hdrSize ≤ s.out.length := by
  obtain ⟨-, hout⟩ := h.headerOut (.inl (by rw [hp]; rfl))
  exact hout

theorem whenEnabled_next_ne_fault (i : Instr) (s t : State) (f : Fault) : whenEnabled i s (.next t) ≠ .fault f := by
  obtain ⟨-, heq⟩ | ⟨-, heq⟩ := whenEnabled_cases i s (.next t) <;> simp [heq]

/-- An operation whose stop cannot hold where it is enabled does not stop the machine. -/
theorem whenEnabled_guarded_ne_fault {i : Instr} {s u : State} {stop : Prop} [Decidable stop] {f : Fault}
    (hgo : s.enables i = true → ¬ stop) (f' : Fault) :
    whenEnabled i s (if stop then .fault f else .next u) ≠ .fault f' := by
  obtain ⟨he, heq⟩ | ⟨-, heq⟩ := whenEnabled_cases i s (if stop then .fault f else .next u)
  · rw [heq, if_neg (hgo he)]
    simp
  · simp [heq]

/-- The three operations that can stop the machine stay inside the line and inside OUT. -/
theorem State.Inv.exec_ne_fault {s : State} (h : s.Inv) (i : Instr) (f : Fault) : exec i s ≠ .fault f := by
  cases i with
  | echoMix =>
    refine whenEnabled_guarded_ne_fault (fun he => ?_) f
    obtain ⟨hp, -⟩ : s.phase = .echoRun ∧ s.exh = false := by simpa [State.enables] using he
    simp [h.idxInLine (.inl hp)]
  | echoFlush =>
    refine whenEnabled_guarded_ne_fault (fun he => ?_) f
    obtain ⟨hp, -⟩ : s.phase = .echoFlush ∧ s.exh = false := by simpa [State.enables] using he
    simp [h.idxInLine (.inr hp)]
  | hdrPatch =>
    refine whenEnabled_guarded_ne_fault (fun he => ?_) f
    exact Nat.not_lt.mpr (h.hdrSize_le_out (of_decide_eq_true he))
  | checkEcho | checkDmx | hdrCopy | echoInit | echoEos | echoFlushend | dmxPair | dmxEos =>
    exact whenEnabled_next_ne_fault _ s _ f
  | _ => nofun

theorem State.Inv.step_ne_fault {s : State} (h : s.Inv) (f : Fault) : step s ≠ .fault f := by
  obtain ⟨i, -, hrun⟩ | ⟨t, hsettle⟩ := fetchTurn_cases (s.schedule.headD .sequencer) s.takeTurn
  · rw [step_of_run ((fetch_eq_fetchTurn s).trans hrun)]
    exact h.takeTurn.exec_ne_fault i f
  · rw [step_of_settle ((fetch_eq_fetchTurn s).trans hsettle)]
    simp

/-- Settles O50: no step is refused in any state, and none faults where the invariant holds. -/
theorem goodStatesNeverStop : Obligations.GoodStatesNeverStop := by
  intro s hs
  cases hstep : step s with
  | next t => exact ⟨t, rfl⟩
  | fault f => exact absurd hstep (hs.step_ne_fault f)
  | refused r => exact absurd hstep (stepIsNeverRefused s r)

end Sys2Proof.Machine
end

section
/-! Progress and the length of a run (70_reset_and_hazards.md R245, R247). An operation of a busy sequencer faults or
leaves one operation fewer, and uses up one of the sink's answers for each of its writes. A run whose configuration is
legal, whose header is there and whose sink has settled on success for all its writes counts down to DONE. -/

namespace Sys2Proof.Machine

/-! ## The sequencer's operation (R245) -/

theorem Phase.exists_operation_of_busy {p : Phase} (h : p.busy = true) (m : Mode) (exh : Bool) :
    ∃ i, p.operation m exh = some i := by
  cases p with
  | idle | done | fault => cases h
  | _ => exact ⟨_, rfl⟩

/-- With no turn scheduled, a busy machine with the invariant executes the operation its selector selects. -/
theorem State.Inv.exists_step_of_busy {s : State} (hs : s.Inv) (hbusy : s.phase.busy = true)
    (hsched : s.schedule = []) : ∃ i t, step s = .next t ∧ i.format = .seq ∧ Executes s i t := by
  obtain ⟨i, hop⟩ := Phase.exists_operation_of_busy hbusy s.mode s.exh
  have hdecode := decodeSeq_selector_eq_ok_iff.mpr hop
  have hstep : step s = exec i s := step_of_run ((fetch_of_empty hsched).trans (fetchSequencer_of_ok hdecode))
  obtain ⟨t, ht⟩ := goodStatesNeverStop s hs
  exact ⟨i, t, ht, decodeSeq_format hdecode, exec_next_iff.mp (hstep.symm.trans ht)⟩

theorem format_of_isNopw {i : Instr} (h : isNopw i = true) : i.format = .host := by
  cases i with
  | nopwCtrl | nopwStatus | nopwInPos | nopwOutLen | nopwReserved => rfl
  | _ => cases h

theorem format_of_onlyInIdle {i : Instr} (h : onlyInIdle i = true) : i.format = .host := by
  cases i with
  | start | setmode | setdelay | setvscale => rfl
  | _ => cases h

/-! ## What is left of a run (R247) -/

/-- The writes a run that meets no fault still has before it: the header, a sample or a pair each, and the two size
fields of an echo run. -/
def State.writesLeft (s : State) : Nat :=
  match s.phase with
  | .check | .hdr =>
    match s.mode with
    | .echo => s.echoTotal + 3
    | .downmix => pairCount s.input + 1
  | .echoInit | .echoRun => s.inAvail / 2 + s.delayNat + 2
  | .echoFlush => s.delayNat - s.flushCnt + 2
  | .patch => 2
  | .dmxRun => s.inAvail / 4
  | .idle | .done | .fault => 0

/-- `t` has one operation fewer before it than `s`, and `w` writes fewer, whose answers the sink has given. -/
structure State.Advances (s t : State) (w : Nat) : Prop where
  steps : t.stepsLeft + 1 = s.stepsLeft
  writes : t.writesLeft + w = s.writesLeft
  answers : t.sink = s.sink.drop w

/-- An operation of the sequencer faults or counts down by one. In the three loops EXH decides: while it is clear a
sample, a tail sample or a pair is left, and where it is set none is, so the loop's share of the count is used up. -/
theorem Executes.faults_or_advances {s t : State} {i : Instr} (h : Executes s i t) (hi : i.format = .seq)
    (hs : s.Inv) : t.phase = .fault ∨ ∃ w, s.Advances t w := by
  cases h with
  | rdreg | start | abort | setmode | setdelay | setvscale => cases hi
  | nopw hn => cases hi.symm.trans (format_of_isNopw hn)
  | ignored hn => cases hi.symm.trans (format_of_onlyInIdle hn)
  | echoRejected | headerShort | headerTorn | mixTorn | flushTorn | riffTorn | dataTorn | pairTorn => exact .inl rfl
  | echoAccepted hp hm | dmxAccepted hp hm =>
    refine .inr ⟨0, ?_, ?_, rfl⟩ <;>
      simp [State.stepsLeft, State.writesLeft, State.echoTotal, State.delayNat, hp, hm]
  | headerCopied hp =>
    obtain ⟨hpos, -⟩ := hs.fresh (.inr hp)
    cases hm : s.mode <;> refine .inr ⟨1, ?_, ?_, List.drop_one.symm⟩ <;>
      simp [State.stepsLeft, State.writesLeft, State.inAvail, State.echoTotal, State.delayNat, sampleCount, pairCount,
        firstPhaseOf, hp, hm, hpos]
  | lineCleared hp =>
    refine .inr ⟨0, ?_, ?_, rfl⟩ <;> simp [State.stepsLeft, State.writesLeft, State.inAvail, State.delayNat, hp]
  | mixed hp hx =>
    rw [State.exh_echoRun hp, decide_eq_false_iff_not, State.inAvail] at hx
    refine .inr ⟨1, ?_, ?_, List.drop_one.symm⟩ <;>
      simp [State.stepsLeft, State.writesLeft, State.inAvail, State.delayNat, hp] <;> omega
  | echoEnded hp hx =>
    rw [State.exh_echoRun hp, decide_eq_true_eq] at hx
    have hzero := hs.noFlushYet hp
    refine .inr ⟨0, ?_, ?_, rfl⟩ <;>
      simp [State.stepsLeft, State.writesLeft, State.delayNat, hp, hzero, hx]
  | flushed hp hx =>
    have hcount := State.flushCnt_lt hp hx
    rw [State.delayNat] at hcount
    refine .inr ⟨1, ?_, ?_, List.drop_one.symm⟩ <;>
      simp [State.stepsLeft, State.writesLeft, State.delayNat, hp] <;> omega
  | flushEnded hp hx =>
    rw [State.exh_echoFlush hp, decide_eq_true_eq] at hx
    refine .inr ⟨0, ?_, ?_, rfl⟩ <;>
      simp [State.stepsLeft, State.writesLeft, State.delayNat, hp] <;> omega
  | patched hp =>
    refine .inr ⟨2, ?_, ?_, by simp [← List.drop_one]⟩ <;> simp [State.stepsLeft, State.writesLeft, hp]
  | paired hp hx =>
    rw [State.exh_dmxRun hp, decide_eq_false_iff_not, State.inAvail] at hx
    refine .inr ⟨1, ?_, ?_, List.drop_one.symm⟩ <;>
      simp [State.stepsLeft, State.writesLeft, State.inAvail, hp] <;> omega
  | dmxEnded hp hx =>
    rw [State.exh_dmxRun hp, decide_eq_true_eq] at hx
    refine .inr ⟨0, ?_, ?_, rfl⟩ <;>
      simp [State.stepsLeft, State.writesLeft, hp, Nat.div_eq_of_lt hx]

/-- Settles O56: the sequencer's turn runs an operation, which faults or counts down. -/
theorem busySequencerMakesProgress : Obligations.BusySequencerMakesProgress := by
  intro s hs hbusy hsched
  obtain ⟨i, t, hstep, hi, h⟩ := hs.exists_step_of_busy hbusy hsched
  exact ⟨t, hstep, (h.faults_or_advances hi hs).imp_right fun ⟨_, hadv⟩ => hadv.steps⟩

/-- Outside the sequencer's seven phases, and nowhere else, there is nothing left to run. -/
theorem State.stepsLeft_pos_iff {s : State} : 0 < s.stepsLeft ↔ s.phase.busy = true := by
  cases hp : s.phase with
  | check | hdr => cases hm : s.mode <;> simp [State.stepsLeft, Phase.busy, hp, hm]
  | _ => simp [State.stepsLeft, Phase.busy, hp]

/-! ## A sink that has settled on success (20_memory.md R59) -/

theorem State.sinkOkFor.sinkAnswer {s : State} {n : Nat} (h : s.sinkOkFor n) (hn : 0 < n) : s.sinkAnswer = .ok := by
  obtain ⟨hlen, hok⟩ := h
  cases hsink : s.sink with
  | nil => rw [hsink, List.length_nil] at hlen; omega
  | cons a rest => simp [State.sinkAnswer, hsink, hok a (by simp [hsink])]

/-- The answers not yet given are a suffix of those there were. -/
theorem State.sinkOkFor.drop {s t : State} {n w : Nat} (h : s.sinkOkFor (n + w)) (ht : t.sink = s.sink.drop w) :
    t.sinkOkFor n := by
  obtain ⟨hlen, hok⟩ := h
  rw [State.sinkOkFor, ht, List.length_drop]
  exact ⟨by omega, fun a ha => hok a (List.mem_of_mem_drop ha)⟩

/-! ## A run that will succeed -/

/-- A run under way that no fault is going to end, and that nobody but the sequencer moves: its configuration is legal,
IN holds a header, and the sink succeeds in all its writes. -/
structure State.OnCourse (s : State) : Prop where
  inv : s.Inv
  underWay : s.phase ≠ .idle ∧ s.phase ≠ .fault
  undisturbed : s.schedule = []
  header : hdrSize ≤ s.input.length
  legal : s.mode = .echo → s.echoConfigLegal
  sink : s.sinkOkFor s.writesLeft

theorem State.OnCourse.sinkAnswer {s : State} (h : s.OnCourse) (hw : 0 < s.writesLeft) : s.sinkAnswer = .ok :=
  h.sink.sinkAnswer hw

/-- A busy machine has a write before it, unless it is a downmix at its end. -/
theorem State.writesLeft_pos {s : State} (hbusy : s.phase.busy = true) (hx : s.phase = .dmxRun → s.exh = false) :
    0 < s.writesLeft := by
  cases hp : s.phase with
  | idle | done | fault => rw [hp] at hbusy; cases hbusy
  | check | hdr => cases hm : s.mode <;> simp [State.writesLeft, hp, hm]
  | echoInit | echoRun | echoFlush | patch => simp [State.writesLeft, hp]
  | dmxRun =>
    have hin := hx hp
    rw [State.exh_dmxRun hp, decide_eq_false_iff_not] at hin
    simp only [State.writesLeft, hp]
    omega

/-- No operation takes a run on course to FAULT: each fault's cause is excluded (60_exceptions.md R201). -/
theorem Executes.ne_fault_of_onCourse {s t : State} {i : Instr} (h : Executes s i t) (hs : s.OnCourse) :
    t.phase ≠ .fault := by
  obtain ⟨-, hfault⟩ := hs.underWay
  cases h with
  | rdreg | nopw | ignored | setmode | setdelay | setvscale | mixed | flushed | paired => exact hfault
  | start | abort | echoAccepted | dmxAccepted | lineCleared | echoEnded | flushEnded | patched | dmxEnded => nofun
  | headerCopied => exact firstPhaseOf_ne_fault _
  | echoRejected c hp hm hc =>
    cases hc.symm.trans (s.checkCause_eq_none_iff.mpr (hs.legal hm))
  | headerShort hp hin =>
    obtain ⟨hpos, -⟩ := hs.inv.fresh (.inr hp)
    rw [State.inAvail, hpos] at hin
    exact absurd hs.header (Nat.not_le.mpr hin)
  | headerTorn _ hp _ ha | mixTorn _ hp _ _ ha | flushTorn _ hp _ _ ha | riffTorn _ hp _ ha =>
    cases ha.symm.trans (hs.sinkAnswer (State.writesLeft_pos (by rw [hp]; rfl) (by rw [hp]; nofun)))
  | pairTorn _ hp hx ha =>
    cases ha.symm.trans (hs.sinkAnswer (State.writesLeft_pos (by rw [hp]; rfl) fun _ => hx))
  | dataTorn _ hp _ _ hb =>
    have htwo : s.writesLeft = 1 + 1 := by simp only [State.writesLeft, hp]
    have hsecond : s.sinkAsked.sinkOkFor 1 := (htwo ▸ hs.sink).drop List.drop_one.symm
    cases hb.symm.trans (hsecond.sinkAnswer Nat.one_pos)

/-- The phase graph's way back to IDLE is the host's, not the sequencer's (41_sequencer_header.md R119). -/
theorem phaseEdge_idle_of_seq {i : Instr} (hi : i.format = .seq) (p : Phase) : phaseEdge i p .idle = false := by
  cases i with
  | checkEcho | checkDmx | hdrCopy | echoInit | echoMix | echoEos | echoFlush | echoFlushend | hdrPatch | dmxPair
  | dmxEos => simp [phaseEdge]
  | _ => cases hi

theorem Executes.ne_idle_of_seq {s t : State} {i : Instr} (h : Executes s i t) (hi : i.format = .seq) :
    t.phase ≠ .idle := fun ht => by
  have hedge := h.phaseEdge
  rw [ht, phaseEdge_idle_of_seq hi] at hedge
  cases hedge

theorem Executes.schedule_eq {s t : State} {i : Instr} (h : Executes s i t) : t.schedule = s.schedule := by
  cases h <;> rfl

theorem State.sameConfig.echoConfigLegal {s t : State} (h : s.sameConfig t) (hs : s.echoConfigLegal) :
    t.echoConfigLegal := by
  obtain ⟨-, hdelay, hvscale, -, hmax, hgain⟩ := h
  rwa [State.echoConfigLegal, hdelay, hvscale, hmax, hgain]

/-- An operation of the sequencer keeps the run on course and counts down by one. -/
theorem Executes.onCourse {s t : State} {i : Instr} (h : Executes s i t) (hi : i.format = .seq) (hs : s.OnCourse) :
    t.OnCourse ∧ t.stepsLeft + 1 = s.stepsLeft := by
  have hfault := h.ne_fault_of_onCourse hs
  have hconfig := h.sameConfig hs.underWay.1
  obtain ⟨w, hadv⟩ := (h.faults_or_advances hi hs.inv).resolve_left hfault
  have ⟨hmode, _, _, hinput, _, _⟩ := hconfig
  have hcourse : t.OnCourse := {
    inv := h.inv hs.inv
    underWay := ⟨h.ne_idle_of_seq hi, hfault⟩
    undisturbed := h.schedule_eq.trans hs.undisturbed
    header := hinput ▸ hs.header
    legal := fun hm => hconfig.echoConfigLegal (hs.legal (hmode ▸ hm))
    sink := State.sinkOkFor.drop (hadv.writes ▸ hs.sink) hadv.answers }
  exact ⟨hcourse, hadv.steps⟩

/-! ## The run (R247) -/

theorem run_succ_of_step {M : Host.Core} {s t : M.State} (h : M.step s = .next t) (k : Nat) :
    M.run (k + 1) s = M.run k t := by
  rw [Host.Core.run, h]

/-- On course, `k` operations run for every `k` up to the run's length, and leave `k` fewer. -/
theorem State.OnCourse.exists_run {s : State} (hs : s.OnCourse) {k : Nat} (hk : k ≤ s.stepsLeft) :
    ∃ t, core.run k s = .next t ∧ t.OnCourse ∧ t.stepsLeft + k = s.stepsLeft := by
  induction k generalizing s with
  | zero => exact ⟨s, rfl, hs, rfl⟩
  | succ k ih =>
    obtain ⟨i, u, hstep, hi, h⟩ :=
      hs.inv.exists_step_of_busy (State.stepsLeft_pos_iff.mp (Nat.lt_of_lt_of_le k.succ_pos hk)) hs.undisturbed
    obtain ⟨hu, hsteps⟩ := h.onCourse hi hs
    obtain ⟨t, hrun, ht, hleft⟩ := ih hu (by omega)
    exact ⟨t, (run_succ_of_step (M := core) hstep k).trans hrun, ht, by omega⟩

/-- A run on course with nothing left to run is DONE. -/
theorem State.OnCourse.done {s : State} (hs : s.OnCourse) (hzero : s.stepsLeft = 0) : s.phase = .done := by
  have hquiet : ¬ s.phase.busy = true := fun h => (State.stepsLeft_pos_iff.mpr h).ne' hzero
  obtain ⟨hidle, hfault⟩ := hs.underWay
  cases hp : s.phase with
  | done => rfl
  | idle => exact absurd hp hidle
  | fault => exact absurd hp hfault
  | _ => exact absurd (by rw [hp]; rfl) hquiet

/-- A run on course is busy until it has run all it had left, and then DONE. -/
theorem State.OnCourse.run_length {s : State} {n : Nat} (hs : s.OnCourse) (hn : s.stepsLeft = n) :
    (∃ t, core.run n s = .next t ∧ t.phase = .done) ∧
      ∀ k, k < n → ∃ u, core.run k s = .next u ∧ u.phase.busy = true := by
  refine ⟨?_, fun k hk => ?_⟩
  · obtain ⟨t, hrun, ht, hleft⟩ := hs.exists_run hn.ge
    exact ⟨t, hrun, ht.done (by omega)⟩
  · obtain ⟨u, hrun, -, hleft⟩ := hs.exists_run (k := k) (by omega)
    exact ⟨u, hrun, State.stepsLeft_pos_iff.mp (by omega)⟩

/-- Settles O57: a run in CHECK that meets the conditions is on course, with so many operations left. -/
theorem successfulRunLength : Obligations.SuccessfulRunLength := by
  intro s hs hp hsched hin
  have hunder : s.phase ≠ .idle ∧ s.phase ≠ .fault := by simp [hp]
  refine ⟨fun hm hlegal hsink => ?_, fun hm hsink => ?_⟩
  · have hwrites : s.writesLeft = sampleCount s.input + s.delayNat + 3 := by
      simp only [State.writesLeft, hp, hm, State.echoTotal]
    have hcourse : s.OnCourse := ⟨hs, hunder, hsched, hin, fun _ => hlegal, hwrites ▸ hsink⟩
    exact hcourse.run_length (by simp only [State.stepsLeft, hp, hm, State.echoTotal])
  · have hwrites : s.writesLeft = pairCount s.input + 1 := by simp only [State.writesLeft, hp, hm]
    have hcourse : s.OnCourse :=
      ⟨hs, hunder, hsched, hin, fun he => absurd (hm.symm.trans he) (by decide), hwrites ▸ hsink⟩
    exact hcourse.run_length (by simp only [State.stepsLeft, hp, hm])

end Sys2Proof.Machine
end
